-- ==== Sys2Proof/Word.lean ====
section
/-! DEFINITION. The data the core moves: the 16-bit Word (00 R9, R18), the 8-bit character code of the
console port (00 R14), the 4-bit opcode value (30 R91) and the names of the eight general registers (10 R30). -/

namespace Sys2Proof

/-- "An unsigned 16-bit integer, the unit of memory, registers and instructions" (00 R18). -/
abbrev Word := BitVec 16

/-- One 8-bit character code of the console port (00 R14, 92 D12). -/
abbrev Byte := BitVec 8

/-- The 4-bit operation selector (30 R91). -/
abbrev Opcode := BitVec 4

/-- The eight general registers (10 R30): none is hardwired and none has a second name.
No constructor stands for PC or COND, which no instruction can name (10 R31). -/
inductive Reg where
  | r0 | r1 | r2 | r3 | r4 | r5 | r6 | r7
  deriving DecidableEq, Repr

/-- `zext_16` (00 R11): zero bits above the code. -/
abbrev zext16 (b : Byte) : Word := b.setWidth 16

end Sys2Proof
end

