-- ==== Sys2Proof/Syntax.lean ====
section
/-! DEFINITION. The instructions: one constructor per row of spec/opcode_table.json, the seven alias rows
among them (30 R101, R109). An instruction holds the fields the decoder reads and none of the bits it
ignores (30 R103). -/

namespace Sys2Proof

/-- A decoded instruction. Immediates and offsets are the raw fields, before sign extension. -/
inductive Instr where
  /-- BR: mask `nzp`, PCoffset9 (41 R150). -/
  | br (nzp : BitVec 3) (off : BitVec 9)
  /-- ADD, register mode: DR, SR1, SR2 (42 R160). -/
  | addR (dr sr1 sr2 : Reg)
  /-- ADD, immediate mode: DR, SR1, imm5 (42 R161). -/
  | addI (dr sr1 : Reg) (imm : BitVec 5)
  /-- LD: DR, PCoffset9 (43 R180). -/
  | ld (dr : Reg) (off : BitVec 9)
  /-- ST: SR, PCoffset9 (43 R182). -/
  | st (sr : Reg) (off : BitVec 9)
  /-- JSR: PCoffset11 (44 R213). -/
  | jsr (off : BitVec 11)
  /-- JSRR: BaseR (44 R215). -/
  | jsrr (base : Reg)
  /-- AND, register mode: DR, SR1, SR2 (42 R163). -/
  | andR (dr sr1 sr2 : Reg)
  /-- AND, immediate mode: DR, SR1, imm5 (42 R164). -/
  | andI (dr sr1 : Reg) (imm : BitVec 5)
  /-- LDR: DR, BaseR, offset6 (43 R188). -/
  | ldr (dr base : Reg) (off : BitVec 6)
  /-- STR: SR, BaseR, offset6 (43 R190). -/
  | str (sr base : Reg) (off : BitVec 6)
  /-- The reserved opcode 0x8 (46 R260). -/
  | rsv8
  /-- NOT: DR, SR (42 R166). -/
  | not (dr sr : Reg)
  /-- LDI: DR, PCoffset9 (43 R184). -/
  | ldi (dr : Reg) (off : BitVec 9)
  /-- STI: SR, PCoffset9 (43 R186). -/
  | sti (sr : Reg) (off : BitVec 9)
  /-- JMP: BaseR (44 R210). The word with BaseR = R7 is `ret`. -/
  | jmp (base : Reg)
  /-- The reserved opcode 0xD (46 R260). -/
  | rsvd
  /-- LEA: DR, PCoffset9 (43 R192). -/
  | lea (dr : Reg) (off : BitVec 9)
  /-- TRAP: trapvect8 (45 R230). The words with selector 0x20 to 0x25 are the six constructors below. -/
  | trap (vect : Byte)
  /-- RET, JMP R7 (44 R211). -/
  | ret
  /-- GETC, TRAP x20 (45 R232). -/
  | getc
  /-- OUT, TRAP x21 (45 R233). -/
  | out
  /-- PUTS, TRAP x22 (45 R234). -/
  | puts
  /-- IN, TRAP x23 (45 R235). -/
  | inp
  /-- PUTSP, TRAP x24 (45 R236). -/
  | putsp
  /-- HALT, TRAP x25 (45 R237). -/
  | halt
  deriving DecidableEq, Repr

end Sys2Proof
end

