-- ==== Sys2Proof/WellFormed.lean ====
section
/-! DEFINITION. Which instructions are the ones a word decodes to. Every field value is legal (30 R105); the
two checks only say that a word of an alias row is written with the alias row's constructor (30 R109). -/

namespace Sys2Proof

/-- The selectors of the six built-in routines (45 R231), each a row of its own in the opcode table. -/
def namedSelectors : List Byte := [0x20#8, 0x21#8, 0x22#8, 0x23#8, 0x24#8, 0x25#8]

/-- `jmp .r7` is written `ret`, and `trap` with a built-in selector is written with that routine's name. -/
def Instr.wellFormed : Instr → Bool
  | .jmp base => base != .r7
  | .trap v => !(namedSelectors.contains v)
  | .br _ _ => true
  | .addR _ _ _ => true
  | .addI _ _ _ => true
  | .ld _ _ => true
  | .st _ _ => true
  | .jsr _ => true
  | .jsrr _ => true
  | .andR _ _ _ => true
  | .andI _ _ _ => true
  | .ldr _ _ _ => true
  | .str _ _ _ => true
  | .rsv8 => true
  | .not _ _ => true
  | .ldi _ _ => true
  | .sti _ _ => true
  | .rsvd => true
  | .lea _ _ => true
  | .ret => true
  | .getc => true
  | .out => true
  | .puts => true
  | .inp => true
  | .putsp => true
  | .halt => true

/-- The row an alias stands for (30 R109); every other instruction is its own core row. -/
def Instr.core : Instr → Instr
  | .ret => .jmp .r7
  | .getc => .trap 0x20#8
  | .out => .trap 0x21#8
  | .puts => .trap 0x22#8
  | .inp => .trap 0x23#8
  | .putsp => .trap 0x24#8
  | .halt => .trap 0x25#8
  | .br nzp off => .br nzp off
  | .addR d a b => .addR d a b
  | .addI d a i => .addI d a i
  | .ld d o => .ld d o
  | .st r o => .st r o
  | .jsr o => .jsr o
  | .jsrr b => .jsrr b
  | .andR d a b => .andR d a b
  | .andI d a i => .andI d a i
  | .ldr d b o => .ldr d b o
  | .str r b o => .str r b o
  | .rsv8 => .rsv8
  | .not d r => .not d r
  | .ldi d o => .ldi d o
  | .sti r o => .sti r o
  | .jmp b => .jmp b
  | .rsvd => .rsvd
  | .lea d o => .lea d o
  | .trap v => .trap v

end Sys2Proof
end

