-- ==== Sys2Proof/Decode.lean ====
section
/-! DEFINITION. The Instruction Decoder (00 R2 (c), 30): the field extractors, sign extension, the total decoder,
the encoder, and the bits of a word the decoder reads. The opcode numbers are 30 R102's (log 13) and the field
places 30 R92's and R101's (log 14). -/

namespace Sys2Proof

/-- The register a 3-bit field names (30 R92). -/
def Reg.ofBits (b : BitVec 3) : Reg :=
  match b.toNat with
  | 0 => .r0
  | 1 => .r1
  | 2 => .r2
  | 3 => .r3
  | 4 => .r4
  | 5 => .r5
  | 6 => .r6
  | _ => .r7

/-- The 3-bit field that names a register. -/
def Reg.bits : Reg → BitVec 3
  | .r0 => 0#3
  | .r1 => 1#3
  | .r2 => 2#3
  | .r3 => 3#3
  | .r4 => 4#3
  | .r5 => 5#3
  | .r6 => 6#3
  | .r7 => 7#3

/-- `op = instr[15:12]` (30 R91). -/
def opcodeOf (w : Word) : Opcode := w.extractLsb' 12 4
/-- `nzp = instr[11:9]` (30 R98). -/
def nzpOf (w : Word) : BitVec 3 := w.extractLsb' 9 3
/-- `dr = instr[11:9]`, SR for a store (30 R92). -/
def drOf (w : Word) : Reg := Reg.ofBits (w.extractLsb' 9 3)
/-- `sr1 = instr[8:6]`, also BaseR and NOT's SR (30 R92). -/
def sr1Of (w : Word) : Reg := Reg.ofBits (w.extractLsb' 6 3)
/-- `sr2 = instr[2:0]` (30 R92). -/
def sr2Of (w : Word) : Reg := Reg.ofBits (w.extractLsb' 0 3)
/-- `imm_mode = instr[5]` (30 R93). -/
def immModeOf (w : Word) : Bool := w.getLsbD 5
/-- `long = instr[11]` (30 R97). -/
def longOf (w : Word) : Bool := w.getLsbD 11
/-- `imm5 = instr[4:0]` (30 R94). -/
def imm5Of (w : Word) : BitVec 5 := w.extractLsb' 0 5
/-- `offset6 = instr[5:0]` (30 R95). -/
def off6Of (w : Word) : BitVec 6 := w.extractLsb' 0 6
/-- `PCoffset9 = instr[8:0]` (30 R96). -/
def off9Of (w : Word) : BitVec 9 := w.extractLsb' 0 9
/-- `PCoffset11 = instr[10:0]` (30 R97). -/
def off11Of (w : Word) : BitVec 11 := w.extractLsb' 0 11
/-- `trapvect8 = instr[7:0]`, never sign-extended (30 R99). -/
def trapvectOf (w : Word) : Byte := w.extractLsb' 0 8

/-- `sign_extend(v, n)` (00 R10; the sign bit is bit n-1, 90 C1). Bits above n-1 are kept when it is clear. -/
def signExtend (v : Word) (n : Nat) : Word :=
  if v.getLsbD (n - 1) then v ||| (0xFFFF#16 <<< n) else v

/-- `sext_5` of imm5 (00 R11, 30 R94). -/
def sext5 (f : BitVec 5) : Word := signExtend (f.setWidth 16) 5
/-- `sext_6` of offset6 (00 R11, 30 R95). -/
def sext6 (f : BitVec 6) : Word := signExtend (f.setWidth 16) 6
/-- `sext_9` of PCoffset9 (00 R11, 30 R96). -/
def sext9 (f : BitVec 9) : Word := signExtend (f.setWidth 16) 9
/-- `sext_11` of PCoffset11 (00 R11, 30 R97). -/
def sext11 (f : BitVec 11) : Word := signExtend (f.setWidth 16) 11

/-- Opcode 0xF: the six built-in selectors have rows of their own (45 R231, 30 R109). -/
def decodeTrap (v : Byte) : Instr :=
  if v = 0x20#8 then .getc
  else if v = 0x21#8 then .out
  else if v = 0x22#8 then .puts
  else if v = 0x23#8 then .inp
  else if v = 0x24#8 then .putsp
  else if v = 0x25#8 then .halt
  else .trap v

/-- Opcode 0xC: BaseR = R7 has a row of its own (44 R211, 30 R109). -/
def decodeJmp (base : Reg) : Instr :=
  if base = .r7 then .ret else .jmp base

/-- The decoder: total and pure, "every one of the 65536 words decodes to exactly one row" (30 R104). The
arms are 30 R102's map; the last is 0xF. -/
def decode (w : Word) : Instr :=
  match (opcodeOf w).toNat with
  | 0x0 => .br (nzpOf w) (off9Of w)
  | 0x1 => if immModeOf w then .addI (drOf w) (sr1Of w) (imm5Of w) else .addR (drOf w) (sr1Of w) (sr2Of w)
  | 0x2 => .ld (drOf w) (off9Of w)
  | 0x3 => .st (drOf w) (off9Of w)
  | 0x4 => if longOf w then .jsr (off11Of w) else .jsrr (sr1Of w)
  | 0x5 => if immModeOf w then .andI (drOf w) (sr1Of w) (imm5Of w) else .andR (drOf w) (sr1Of w) (sr2Of w)
  | 0x6 => .ldr (drOf w) (sr1Of w) (off6Of w)
  | 0x7 => .str (drOf w) (sr1Of w) (off6Of w)
  | 0x8 => .rsv8
  | 0x9 => .not (drOf w) (sr1Of w)
  | 0xA => .ldi (drOf w) (off9Of w)
  | 0xB => .sti (drOf w) (off9Of w)
  | 0xC => decodeJmp (sr1Of w)
  | 0xD => .rsvd
  | 0xE => .lea (drOf w) (off9Of w)
  | _ => decodeTrap (trapvectOf w)

/-- Opcode, a 3-bit field at [11:9], a 9-bit field (30 R101). -/
def pack9 (op : Opcode) (hi : BitVec 3) (lo : BitVec 9) : Word := op ++ hi ++ lo

/-- Opcode, 3-bit fields at [11:9] and [8:6], 6 bits (30 R101). -/
def pack6 (op : Opcode) (hi mid : BitVec 3) (lo : BitVec 6) : Word := op ++ hi ++ mid ++ lo

/-- Opcode, bit 11, an 11-bit field (30 R101). -/
def pack11 (op : Opcode) (long : BitVec 1) (lo : BitVec 11) : Word := op ++ long ++ lo

/-- Opcode, four ignored bits, an 8-bit field (30 R101). -/
def pack8 (op : Opcode) (lo : BitVec 8) : Word := op ++ 0#4 ++ lo

/-- The word of an instruction (30 R101), ignored bits 0 (DESIGN CHOICE, log 18: the decoder ignores them). -/
def encode : Instr → Word
  | .br nzp off => pack9 0x0#4 nzp off
  | .addR d a b => pack6 0x1#4 d.bits a.bits (0#3 ++ b.bits)
  | .addI d a i => pack6 0x1#4 d.bits a.bits (1#1 ++ i)
  | .ld d off => pack9 0x2#4 d.bits off
  | .st r off => pack9 0x3#4 r.bits off
  | .jsr off => pack11 0x4#4 1#1 off
  | .jsrr b => pack6 0x4#4 0#3 b.bits 0#6
  | .andR d a b => pack6 0x5#4 d.bits a.bits (0#3 ++ b.bits)
  | .andI d a i => pack6 0x5#4 d.bits a.bits (1#1 ++ i)
  | .ldr d b off => pack6 0x6#4 d.bits b.bits off
  | .str r b off => pack6 0x7#4 r.bits b.bits off
  | .rsv8 => pack6 0x8#4 0#3 0#3 0#6
  | .not d r => pack6 0x9#4 d.bits r.bits 0#6
  | .ldi d off => pack9 0xA#4 d.bits off
  | .sti r off => pack9 0xB#4 r.bits off
  | .jmp b => pack6 0xC#4 0#3 b.bits 0#6
  | .rsvd => pack6 0xD#4 0#3 0#3 0#6
  | .lea d off => pack9 0xE#4 d.bits off
  | .trap v => pack8 0xF#4 v
  | .ret => pack6 0xC#4 0#3 7#3 0#6
  | .getc => pack8 0xF#4 0x20#8
  | .out => pack8 0xF#4 0x21#8
  | .puts => pack8 0xF#4 0x22#8
  | .inp => pack8 0xF#4 0x23#8
  | .putsp => pack8 0xF#4 0x24#8
  | .halt => pack8 0xF#4 0x25#8

/-- The bits the decoder reads in an instruction's word: 1 where 30 R101 names a bit, 0 where it writes `x`. -/
def Instr.readBits : Instr → Word
  | .addR _ _ _ | .andR _ _ _ => 0xFFE7#16
  | .jsrr _ => 0xF9C0#16
  | .rsv8 | .rsvd => 0xF000#16
  | .not _ _ => 0xFFC0#16
  | .jmp _ | .ret => 0xF1C0#16
  | .trap _ | .getc | .out | .puts | .inp | .putsp | .halt => 0xF0FF#16
  | .br _ _ | .addI _ _ _ | .ld _ _ | .st _ _ | .jsr _ | .andI _ _ _ | .ldr _ _ _ | .str _ _ _
  | .ldi _ _ | .sti _ _ | .lea _ _ => 0xFFFF#16

/-- The instruction the decoder reads from a word whose bits are numbered as spec/opcode_table.json numbers
them. Every instruction is one Word (30 R90), so a number of more than 16 bits is no instruction. -/
def decodeTableWord (nbits w : Nat) : Option Instr :=
  if w < 2 ^ nbits ∧ w < 65536 then some (decode (BitVec.ofNat 16 w)) else none

end Sys2Proof
end

