-- ==== Sys2Proof/Config.lean ====
section
/-! DEFINITION. What one machine fixes (00 R7), and the values the spec leaves open: the message texts and the
host's answers at the console port. An opaque constant has no body, so no proof can rest on its value. -/

namespace Sys2Proof

/-- START_PC (00 R7, 70 R301). -/
def Config.startPc : Word := 0x3000#16

/-- COND_P, bit 0 (10 R35). PRESUMED, log 15: the spec takes the three flag values from general knowledge (D4). -/
def Config.condP : Word := 0x0001#16
/-- COND_Z, bit 1 (10 R35). PRESUMED, log 15. -/
def Config.condZ : Word := 0x0002#16
/-- COND_N, bit 2 (10 R35). PRESUMED, log 15. -/
def Config.condN : Word := 0x0004#16

/-- COND_RESET (10 R44). DESIGN CHOICE, log 4: the source gives none; D5's default. Unsafe. -/
def Config.condReset : Word := 0x0000#16
/-- GPR_RESET (10 R43). DESIGN CHOICE, log 3: the source gives none; D6's default. Unsafe. -/
def Config.gprReset : Word := 0x0000#16

/-- KBSR_ADDR, the keyboard status word (20 R64). PRESUMED, log 16: D7. -/
def Config.kbsrAddr : Word := 0xFE00#16
/-- KBDR_ADDR, the keyboard data word (20 R64). PRESUMED, log 16: D7. -/
def Config.kbdrAddr : Word := 0xFE02#16
/-- KB_READY (20 R62). DESIGN CHOICE, log 17: D8. -/
def Config.kbReady : Word := 0x8000#16

/-- The two readings of a TRAP with an unknown selector (00 R7, 45 R238). -/
inductive UnknownTrap where
  | noOp
  | abort
  deriving DecidableEq, Repr

/-- UNKNOWN_TRAP (00 R7). DESIGN CHOICE, log 10: D10's default, which every rule of the spec uses. -/
def Config.unknownTrap : UnknownTrap := .noOp

/-- IN_PROMPT (00 R7, D14). DESIGN CHOICE, log 12: the text is not given, so it is a free value. Safe. -/
opaque Config.inPrompt : List Byte
/-- HALT_MSG (00 R7, D14). DESIGN CHOICE, log 12: a free value. Safe. -/
opaque Config.haltMsg : List Byte
/-- ABORT_MSG, "a character string naming the fault" (00 R7, D14), so it may depend on the opcode.
DESIGN CHOICE, log 12: a free value. Safe. -/
opaque Config.abortMsg : Opcode → List Byte

/-- The host's answer to its n-th unscripted ConsoleAvail call (00 R14, D9, U7).
DESIGN CHOICE, log 8: a free value. Safe. -/
opaque Config.consoleAvail : Nat → Bool
/-- The character the host supplies at its n-th unscripted draw (00 R14, D9).
DESIGN CHOICE, log 8: a free value. Safe. -/
opaque Config.consoleChar : Nat → Byte
/-- How the host answers the polls of a string that only a poll can end (45 R234 (e), U7): `some k` is k more times
yes and then no, `none` is yes for ever, a non-zero character each time. DESIGN CHOICE, log 11: a free value. Safe. -/
opaque Config.yesRun : Nat → Option Nat

end Sys2Proof
end

