-- ==== Sys2Proof/Machine/State.lean ====
section
/-! DEFINITION. The state of the machine (10's opening table) as plain data, the reasons a step can stop, and the
state after construction (10 R43-R47). -/

namespace Sys2Proof.Machine

/-- The eight general registers, one Word each (10 R30). -/
structure Regs where
  r0 : Word
  r1 : Word
  r2 : Word
  r3 : Word
  r4 : Word
  r5 : Word
  r6 : Word
  r7 : Word
  deriving DecidableEq, Repr

/-- Why the run stopped (10 R41): not stopped, by HALT, or by a reserved opcode `op`. -/
inductive StopReason where
  | none
  | halt
  | abort (op : Opcode)
  deriving DecidableEq, Repr

/-- The console port's host side (00 R14), the MODEL's field: 10 R42 gives the pending input to the host, and
92 D9 makes the answers an input of the model. DESIGN CHOICE, log 8, 9 and 20. -/
structure Console where
  /-- The answers the host will give to the next ConsoleAvail calls; free draws follow. -/
  polls : List Bool
  /-- The codes the next ConsoleRead calls return; free draws follow unless `ended`. -/
  input : List Byte
  /-- The host will never supply a character beyond `input` (92 D15). -/
  ended : Bool
  /-- How many free draws have been taken. -/
  draws : Nat
  /-- What ConsoleWrite has written, oldest first. -/
  output : List Byte
  deriving DecidableEq, Repr

/-- The machine's state. -/
structure State where
  /-- R0 to R7 (10 R30). -/
  regs : Regs
  /-- The program counter (10 R32). -/
  pc : Word
  /-- The Condition-Flags Word (10 R34). -/
  cond : Word
  /-- Memory (20 R60) in canonical form: the low byte of word `a` under key `2a`, its high byte under `2a+1`,
  keys strictly rising, no byte 0x00 listed. DESIGN CHOICE, log 1. -/
  mem : List Host.Cell
  /-- The "running" flag (10 R40). -/
  running : Bool
  /-- Why the run stopped (10 R41). -/
  stopReason : StopReason
  /-- The console port's host side. -/
  console : Console
  deriving DecidableEq, Repr

/-- The reasons the machine cannot step. None is a fault of the hardware, whose one fault, a reserved opcode, is
a next state that has stopped (46 R260). -/
inductive Fault where
  /-- GETC or IN when the host will supply no more characters: "waiting for console input, with no step possible"
  (40 R133 (d), 92 D15). Raised by `routineGetc` and `routineIn`. Safe: the model stops where the hardware waits. -/
  | awaitingInput
  /-- PUTS or PUTSP over a Memory with no zero cell while the host answers yes, with a non-zero character, at every
  poll to come: "the loop does not end. It runs forever unless the poll at KBSR_ADDR returns 0x0000" (45 R234 (e)),
  so the step has no successor. Raised by `stringForever`. Safe, log 11. -/
  | stringUnending
  /-- A step asked of a machine that has Stopped: "terminal, no resumption within the run" (40 R137).
  Raised by `step`. Safe, log 7. -/
  | stopped
  deriving DecidableEq, Repr

/-- Why an instruction has no meaning. No instruction of this machine is refused. -/
inductive Refusal where
  /-- Raised only by an arm of `exec` that has no meaning yet: there is none. Safe. -/
  | notModelled (mnemonic : String)
  deriving DecidableEq, Repr

/-- A fresh console port: nothing scripted, nothing written. DESIGN CHOICE, log 8, 9 and 20. -/
def Console.fresh : Console :=
  { polls := [], input := [], ended := false, draws := 0, output := [] }

/-- The state after construction, before the loads and before `run()` (70 R300): running = false, no stop reason
(10 R46), Memory 0x0000 everywhere (10 R47). The registers and COND hold D6's and D5's defaults (log 3, 4); PC is
not observable before `run()` (10 R45, log 5). -/
def State.reset : State :=
  { regs :=
      { r0 := Config.gprReset, r1 := Config.gprReset, r2 := Config.gprReset, r3 := Config.gprReset,
        r4 := Config.gprReset, r5 := Config.gprReset, r6 := Config.gprReset, r7 := Config.gprReset }
    pc := Config.startPc
    cond := Config.condReset
    mem := []
    running := false
    stopReason := .none
    console := Console.fresh }

end Sys2Proof.Machine
end

