-- ==== Sys2Proof/Machine/Flags.lean ====
section
/-! DEFINITION. The condition-flag logic (40 R134). -/

namespace Sys2Proof.Machine

/-- The flag of a register's value: Zero if it is 0, else Negative if bit 15 is set, else Positive (40 R134). -/
def condOf (v : Word) : Word :=
  if v = 0x0000#16 then Config.condZ
  else if v.getLsbD 15 then Config.condN
  else Config.condP

end Sys2Proof.Machine
end

