-- ==== Sys2Proof/Machine/Ops.lean ====
section
/-! DEFINITION. The named operations every meaning is written over: the Register File, the Memory Unit with its
keyboard poll (20), the console port (00 R14), trap entry (60 R275), stopping (40 R137), the fetch (40 R131), the
start of a run (40 R130). -/

namespace Sys2Proof.Machine

/-! ### Register File (10 R30) -/

def Regs.get (g : Regs) : Reg → Word
  | .r0 => g.r0
  | .r1 => g.r1
  | .r2 => g.r2
  | .r3 => g.r3
  | .r4 => g.r4
  | .r5 => g.r5
  | .r6 => g.r6
  | .r7 => g.r7

def Regs.set (g : Regs) (i : Reg) (v : Word) : Regs :=
  match i with
  | .r0 => { g with r0 := v }
  | .r1 => { g with r1 := v }
  | .r2 => { g with r2 := v }
  | .r3 => { g with r3 := v }
  | .r4 => { g with r4 := v }
  | .r5 => { g with r5 := v }
  | .r6 => { g with r6 := v }
  | .r7 => { g with r7 := v }

/-- `x[i]` (00 R12). -/
def State.reg (s : State) (i : Reg) : Word := s.regs.get i

/-- `x[i] <- v` (00 R12), without the flag update. -/
def State.setReg (s : State) (i : Reg) (v : Word) : State := { s with regs := s.regs.set i v }

/-- `update_flags(i)`: COND from the value now in Ri (40 R134). -/
def State.updateFlags (s : State) (i : Reg) : State := { s with cond := condOf (s.reg i) }

/-- `x[i] <- v` and then `update_flags(i)`, as after every general-register write (40 R135). -/
def State.writeReg (s : State) (i : Reg) (v : Word) : State := (s.setReg i v).updateFlags i

/-- `pc <- target` (00 R12). -/
def State.setPc (s : State) (target : Word) : State := { s with pc := target }

/-! ### Memory Unit (20) -/

/-- A byte of the list; an unlisted byte reads 0x00, so fresh Memory reads 0x0000 (10 R47, log 2). -/
def readByte : List Host.Cell → Nat → Byte
  | [], _ => 0x00#8
  | (k, b) :: rest, a => if a = k then b else readByte rest a

/-- Store a byte, keeping the canonical form: a byte 0x00 is not listed. -/
def writeByte : List Host.Cell → Nat → Byte → List Host.Cell
  | [], a, v => if v = 0x00#8 then [] else [(a, v)]
  | (k, b) :: rest, a, v =>
    if a < k then (if v = 0x00#8 then (k, b) :: rest else (a, v) :: (k, b) :: rest)
    else if a = k then (if v = 0x00#8 then rest else (a, v) :: rest)
    else (k, b) :: writeByte rest a v

/-- The stored Word `Mem[a]` (20 R60). -/
def readWord (m : List Host.Cell) (a : Word) : Word :=
  readByte m (2 * a.toNat + 1) ++ readByte m (2 * a.toNat)

/-- `Mem[a] <- v` (20 R60). -/
def writeWord (m : List Host.Cell) (a v : Word) : List Host.Cell :=
  writeByte (writeByte m (2 * a.toNat) (v.extractLsb' 0 8)) (2 * a.toNat + 1) (v.extractLsb' 8 8)

/-- The canonical form: keys strictly rising, none beyond the 65536 Words, no byte 0x00 listed. -/
abbrev Memory.wf (m : List Host.Cell) : Prop :=
  m.Pairwise (fun x y => x.1 < y.1) ∧ ∀ c ∈ m, c.1 < 131072 ∧ c.2 ≠ 0x00#8

/-! ### Console port (00 R14) -/

/-- A ConsoleRead would return: the host has, or may yet supply, a character (92 D15). -/
def Console.canRead (c : Console) : Bool := !c.input.isEmpty || !c.ended

/-- `ConsoleAvail()`: the next scripted answer, else a free draw (92 D9); false once input has ended (92 D15). -/
def Console.avail (c : Console) : Bool × Console :=
  match c.polls with
  | b :: rest => (c.canRead && b, { c with polls := rest })
  | [] => (c.canRead && Config.consoleAvail c.draws, { c with draws := c.draws + 1 })

/-- `ConsoleRead()`: the next scripted character, else a free draw, else none: input has ended (92 D15). -/
def Console.read (c : Console) : Option (Byte × Console) :=
  match c.input with
  | b :: rest => some (b, { c with input := rest })
  | [] => if c.ended then none else some (Config.consoleChar c.draws, { c with draws := c.draws + 1 })

/-- `ConsoleWrite(b)`. -/
def Console.write (c : Console) (b : Byte) : Console := { c with output := c.output ++ [b] }

/-- `if ConsoleAvail(): c <- ConsoleRead()` (20 R62): the character taken, if one was available. -/
def Console.poll (c : Console) : Option Byte × Console :=
  match c.avail with
  | (false, c') => (none, c')
  | (true, c') =>
    match c'.read with
    | some (b, c'') => (some b, c'')
    | none => (none, c')

/-- `ConsoleWrite(b)` from the core. -/
def State.consoleWrite (s : State) (b : Byte) : State := { s with console := s.console.write b }

/-- `for ch in msg: ConsoleWrite(ch)` (45 R235, R237, 46 R260), the writes at once
(`consoleWriteAll_eq_foldl` says it is them one by one). -/
def State.consoleWriteAll (s : State) (msg : List Byte) : State :=
  { s with console := { s.console with output := s.console.output ++ msg } }

/-! ### MemRead and MemWrite (20 R62, R63) -/

/-- The keyboard poll a read of KBSR_ADDR begins with (20 R62). -/
def State.pollKeyboard (s : State) : State :=
  match s.console.poll with
  | (some c, con) =>
    { s with
      mem := writeWord (writeWord s.mem Config.kbsrAddr Config.kbReady) Config.kbdrAddr (zext16 c)
      console := con }
  | (none, con) => { s with mem := writeWord s.mem Config.kbsrAddr 0x0000#16, console := con }

/-- The state `MemRead(addr, 1)` reads from: polled first if `addr` is KBSR_ADDR, else unchanged (20 R62). -/
def State.afterRead (s : State) (addr : Word) : State :=
  if addr = Config.kbsrAddr then s.pollKeyboard else s

/-- `MemRead(addr, 1)` (20 R62): the Word and the state after the read. -/
def State.memRead (s : State) (addr : Word) : Word × State :=
  (readWord (s.afterRead addr).mem addr, s.afterRead addr)

/-- `MemWrite(addr, 1, v)` (20 R63): a plain store, at the keyboard words too. -/
def State.memWrite (s : State) (addr v : Word) : State := { s with mem := writeWord s.mem addr v }

/-! ### Links, trap entry, stopping -/

/-- `x[7] <- pc; update_flags(7)`: the link of JSR and JSRR (44 R213, R215). -/
def State.link (s : State) : State := s.writeReg .r7 s.pc

/-- Taking a trap (60 R275, 45 R230): R7 saves the return address and COND follows R7; no mode, mask or stack
exists, and control moves to no vector. The step's end is the return (60 R276). -/
def State.trapEntry (s : State) : State := s.link

/-- `stop(reason)` (40 R137). -/
def State.stop (s : State) (reason : StopReason) : State :=
  { s with running := false, stopReason := reason }

/-- The fatal abort (46 R260): the diagnostic, then `stop(Abort(op))`. -/
def State.abort (s : State) (op : Opcode) : State :=
  (s.consoleWriteAll (Config.abortMsg op)).stop (.abort op)

/-! ### Fetch and run -/

/-- The fetch (40 R131): one Word through the Memory Unit, then `pc <- pc + 1`, wrapping. -/
def State.fetch (s : State) : Word × State :=
  ((s.memRead s.pc).1, (s.memRead s.pc).2.setPc (s.pc + 1))

/-- The start of `run()` (40 R130): PC and running only (92 D23, log 29). -/
def State.startRun (s : State) : State := { s with pc := Config.startPc, running := true }

/-- `s` with the word `w` placed where the next step fetches, and running. A fetch from KBSR_ADDR never returns a
stored word (20 R66), so there the word is placed at START_PC and PC moved to it (log 31). -/
def State.placeAtFetch (s : State) (w : Word) : State :=
  let home := if s.running && s.pc != Config.kbsrAddr then s.pc else Config.startPc
  { s with pc := home, mem := writeWord s.mem home w, running := true, stopReason := .none }

end Sys2Proof.Machine
end

