-- ==== Sys2Proof/Machine/Operands.lean ====
section
/-! DEFINITION. The operand forms (43 R194, 44 R217): a register, an immediate, and the addressing modes. `pc` is
already the instruction's address + 1 (10 R33). -/

namespace Sys2Proof.Machine

/-- PC-relative, `pc + sext_9(PCoffset9)` (43 R194). -/
def State.pcRel9 (s : State) (off : BitVec 9) : Word := s.pc + sext9 off

/-- PC-relative, `pc + sext_11(PCoffset11)` (44 R217). -/
def State.pcRel11 (s : State) (off : BitVec 11) : Word := s.pc + sext11 off

/-- Base plus offset, `x[BaseR] + sext_6(offset6)` (43 R194). -/
def State.baseOff (s : State) (base : Reg) (off : BitVec 6) : Word := s.reg base + sext6 off

/-- Indirect: the pointer `MemRead(pc + sext_9(PCoffset9))` and the state after that read (43 R184, R186). -/
def State.pointer (s : State) (off : BitVec 9) : Word × State := s.memRead (s.pcRel9 off)

end Sys2Proof.Machine
end

