-- ==== Sys2Proof/Machine/Branch.lean ====
section
/-! DEFINITION. The conditional branch (41). -/

namespace Sys2Proof.Machine

/-- BR (41 R150): the 3-bit mask ANDed with the COND Word; only COND's low 3 bits can meet it. -/
def execBr (nzp : BitVec 3) (off : BitVec 9) (s : State) : Host.Outcome State Fault Refusal :=
  .next (if nzp.setWidth 16 &&& s.cond ≠ 0x0000#16 then s.setPc (s.pcRel9 off) else s)

end Sys2Proof.Machine
end

