-- ==== Sys2Proof/Machine/LoadStore.lean ====
section
/-! DEFINITION. Loads, stores and address computation (43). Every load reads through MemRead, so a read of
KBSR_ADDR polls the keyboard (20 R68). -/

namespace Sys2Proof.Machine

/-- `x[DR] <- MemRead(ea, 1); update_flags(DR)`: what every load ends with. -/
def State.loadInto (s : State) (dr : Reg) (ea : Word) : State :=
  (s.memRead ea).2.writeReg dr (s.memRead ea).1

/-- LD (43 R180). -/
def execLd (dr : Reg) (off : BitVec 9) (s : State) : Host.Outcome State Fault Refusal :=
  .next (s.loadInto dr (s.pcRel9 off))

/-- ST (43 R182). -/
def execSt (sr : Reg) (off : BitVec 9) (s : State) : Host.Outcome State Fault Refusal :=
  .next (s.memWrite (s.pcRel9 off) (s.reg sr))

/-- LDI (43 R184): the pointer read, then the read through it, in this order. -/
def execLdi (dr : Reg) (off : BitVec 9) (s : State) : Host.Outcome State Fault Refusal :=
  .next ((s.pointer off).2.loadInto dr (s.pointer off).1)

/-- STI (43 R186): the pointer is read through MemRead, the store is plain. -/
def execSti (sr : Reg) (off : BitVec 9) (s : State) : Host.Outcome State Fault Refusal :=
  .next ((s.pointer off).2.memWrite (s.pointer off).1 ((s.pointer off).2.reg sr))

/-- LDR (43 R188): the address is computed from the old BaseR. -/
def execLdr (dr base : Reg) (off : BitVec 6) (s : State) : Host.Outcome State Fault Refusal :=
  .next (s.loadInto dr (s.baseOff base off))

/-- STR (43 R190). -/
def execStr (sr base : Reg) (off : BitVec 6) (s : State) : Host.Outcome State Fault Refusal :=
  .next (s.memWrite (s.baseOff base off) (s.reg sr))

/-- LEA (43 R192): the address itself, no memory access; it sets COND, as every register write does. -/
def execLea (dr : Reg) (off : BitVec 9) (s : State) : Host.Outcome State Fault Refusal :=
  .next (s.writeReg dr (s.pcRel9 off))

end Sys2Proof.Machine
end

