-- ==== Sys2Proof/Machine/Operate.lean ====
section
/-! DEFINITION. The operate instructions ADD, AND, NOT (42), on 16-bit Words modulo 2^16 (42 R168). -/

namespace Sys2Proof.Machine

/-- ADD, register mode (42 R160). -/
def execAddR (dr sr1 sr2 : Reg) (s : State) : Host.Outcome State Fault Refusal :=
  .next (s.writeReg dr (s.reg sr1 + s.reg sr2))

/-- ADD, immediate mode (42 R161). -/
def execAddI (dr sr1 : Reg) (imm : BitVec 5) (s : State) : Host.Outcome State Fault Refusal :=
  .next (s.writeReg dr (s.reg sr1 + sext5 imm))

/-- AND, register mode (42 R163). -/
def execAndR (dr sr1 sr2 : Reg) (s : State) : Host.Outcome State Fault Refusal :=
  .next (s.writeReg dr (s.reg sr1 &&& s.reg sr2))

/-- AND, immediate mode (42 R164). -/
def execAndI (dr sr1 : Reg) (imm : BitVec 5) (s : State) : Host.Outcome State Fault Refusal :=
  .next (s.writeReg dr (s.reg sr1 &&& sext5 imm))

/-- NOT (42 R166). -/
def execNot (dr sr : Reg) (s : State) : Host.Outcome State Fault Refusal :=
  .next (s.writeReg dr (~~~(s.reg sr)))

end Sys2Proof.Machine
end

