-- ==== Sys2Proof/Machine/Reserved.lean ====
section
/-! DEFINITION. The reserved opcodes (46): a fatal abort, which is a next state that has stopped. -/

namespace Sys2Proof.Machine

/-- Opcode 0x8 (46 R260). -/
def execRsv8 (s : State) : Host.Outcome State Fault Refusal := .next (s.abort 0x8#4)

/-- Opcode 0xD (46 R260). -/
def execRsvd (s : State) : Host.Outcome State Fault Refusal := .next (s.abort 0xD#4)

end Sys2Proof.Machine
end

