-- ==== Sys2Proof/Machine/Trap.lean ====
section
/-! DEFINITION. TRAP and the Trap Dispatcher (45). Each routine runs on the state after trap entry, inside the same
step (45 R230 (b)). -/

namespace Sys2Proof.Machine

/-- GETC's routine (45 R232): one character from the console, no echo, the keyboard words untouched (log 24). -/
def routineGetc (s : State) : Host.Outcome State Fault Refusal :=
  match s.console.read with
  | none => .fault .awaitingInput
  | some (c, con) => .next ({ s with console := con }.writeReg .r0 (zext16 c))

/-- OUT's routine (45 R233): R0's low 7 bits. -/
def routineOut (s : State) : Host.Outcome State Fault Refusal :=
  .next (s.consoleWrite (((s.reg .r0).extractLsb' 0 7).setWidth 8))

/-- What PUTS writes for a cell: its low byte (45 R234, log 23). -/
def putsCell (w : Word) : List Byte := [w.extractLsb' 0 8]

/-- What PUTSP writes for a cell: the low byte always, then the high byte if it is not 0 (45 R236). -/
def putspCell (w : Word) : List Byte :=
  if w.extractLsb' 8 8 = 0x00#8 then [w.extractLsb' 0 8] else [w.extractLsb' 0 8, w.extractLsb' 8 8]

/-- The loop of PUTS and PUTSP (45 R234, R236) over the next `n` cells from `a`: each cell is a MemRead (log 22), a
zero cell ends it unprinted and gives `done`, the address wraps. After `n` cells it goes on as `more`. -/
def stringLoop (cell : Word → List Byte) (done : State → Host.Outcome State Fault Refusal)
    (more : Word → State → Host.Outcome State Fault Refusal) :
    Nat → Word → State → Host.Outcome State Fault Refusal
  | 0, a, s => more a s
  | n + 1, a, s =>
    if (s.memRead a).1 = 0x0000#16 then done (s.memRead a).2
    else stringLoop cell done more n (a + 1) ((s.memRead a).2.consoleWriteAll (cell (s.memRead a).1))

/-- How many cells, from R0, use up the scripted answers and come to KBSR_ADDR: each turn of Memory polls once, and a
poll that does not end the string takes a character (log 11). -/
def stringFuel (s : State) : Nat :=
  (Config.kbsrAddr - s.reg .r0).toNat + 65536 * (s.console.polls.length + s.console.input.length + 2)

/-- The host's next poll answers, drawn together: k times yes, then no. None was left scripted
(`routineString_runs`). -/
def State.drawPolls (s : State) (k : Nat) : State :=
  { s with
    console := { s.console with polls := List.replicate k true ++ [false], draws := s.console.draws + 1 } }

/-- Answers drawn for a string that a zero character ended first are the host's to draw again. -/
def State.dropPolls (s : State) : State := { s with console := { s.console with polls := [] } }

/-- A string that no poll ends: its step has no successor (45 R234 (e)). -/
def stringForever : Host.Outcome State Fault Refusal := .fault .stringUnending

/-- The rest, from KBSR_ADDR, of a string that only a poll to come can end (45 R234 (e), log 11): every other Word has
been read as it is and is not 0 (`routineString_runs`). It goes on up to the poll that answers no, one turn of Memory
for each answer, or for ever. That poll always comes first (`stringRest_ends`). -/
def stringRest (cell : Word → List Byte) (a : Word) (s : State) : Host.Outcome State Fault Refusal :=
  match Config.yesRun s.console.draws with
  | none => stringForever
  | some k =>
    stringLoop cell (fun t => .next t.dropPolls) (fun _ _ => stringForever) (65536 * (k + 1)) a (s.drawPolls k)

/-- The loop of PUTS and PUTSP from R0, without a bound (45 R234, R236). -/
def routineString (cell : Word → List Byte) (s : State) : Host.Outcome State Fault Refusal :=
  stringLoop cell .next (stringRest cell) (stringFuel s) (s.reg .r0) s

/-- PUTS's routine (45 R234). -/
def routinePuts (s : State) : Host.Outcome State Fault Refusal :=
  routineString putsCell s

/-- IN's routine (45 R235): the prompt, one character, its echo, R0. -/
def routineIn (s : State) : Host.Outcome State Fault Refusal :=
  match (s.consoleWriteAll Config.inPrompt).console.read with
  | none => .fault .awaitingInput
  | some (c, con) => .next (({ s with console := con }.consoleWrite c).writeReg .r0 (zext16 c))

/-- PUTSP's routine (45 R236). -/
def routinePutsp (s : State) : Host.Outcome State Fault Refusal :=
  routineString putspCell s

/-- HALT's routine (45 R237). -/
def routineHalt (s : State) : Host.Outcome State Fault Refusal :=
  .next ((s.consoleWriteAll Config.haltMsg).stop .halt)

/-- A selector with no routine (45 R238), under either reading of UNKNOWN_TRAP (log 10). -/
def routineUnknown (reading : UnknownTrap) (s : State) : Host.Outcome State Fault Refusal :=
  match reading with
  | .noOp => .next s
  | .abort => .next (s.abort 0xF#4)

/-- `dispatch(v)` (45 R231). -/
def dispatch (v : Byte) (s : State) : Host.Outcome State Fault Refusal :=
  if v = 0x20#8 then routineGetc s
  else if v = 0x21#8 then routineOut s
  else if v = 0x22#8 then routinePuts s
  else if v = 0x23#8 then routineIn s
  else if v = 0x24#8 then routinePutsp s
  else if v = 0x25#8 then routineHalt s
  else routineUnknown Config.unknownTrap s

/-- TRAP (45 R230): trap entry, then `dispatch(instr[7:0])`, for every selector. -/
def execTrap (vect : Byte) (s : State) : Host.Outcome State Fault Refusal := dispatch vect s.trapEntry

/-- GETC (45 R230, R232). -/
def execGetc (s : State) : Host.Outcome State Fault Refusal := routineGetc s.trapEntry
/-- OUT (45 R230, R233). -/
def execOut (s : State) : Host.Outcome State Fault Refusal := routineOut s.trapEntry
/-- PUTS (45 R230, R234). -/
def execPuts (s : State) : Host.Outcome State Fault Refusal := routinePuts s.trapEntry
/-- IN (45 R230, R235). -/
def execIn (s : State) : Host.Outcome State Fault Refusal := routineIn s.trapEntry
/-- PUTSP (45 R230, R236). -/
def execPutsp (s : State) : Host.Outcome State Fault Refusal := routinePutsp s.trapEntry
/-- HALT (45 R230, R237). -/
def execHalt (s : State) : Host.Outcome State Fault Refusal := routineHalt s.trapEntry

end Sys2Proof.Machine
end

