-- ==== Sys2Proof/Machine/Step.lean ====
section
/-! DEFINITION. One step of the machine (40 R130, R131). -/

namespace Sys2Proof.Machine

/-- While Running: fetch, increment, decode, execute (40 R131). Stopped with no reason yet: the start of `run()`
(40 R130, log 6). Stopped with a reason: terminal (40 R137, log 7). -/
def step (s : State) : Host.Outcome State Fault Refusal :=
  if s.running then exec (decode s.fetch.1) s.fetch.2
  else
    match s.stopReason with
    | .none => .next s.startRun
    | .halt => .fault .stopped
    | .abort _ => .fault .stopped

/-- `s` with the instruction whose bits are `w` where `step` fetches its next instruction, and running, so that
the very next step runs it (log 6, 31). -/
def State.withFetchWord (s : State) (nbits w : Nat) : State :=
  s.placeAtFetch (BitVec.ofNat 16 (w % 2 ^ nbits))

end Sys2Proof.Machine
end

