-- ==== Sys2Proof/Machine/Loader.lean ====
section
/-! DEFINITION. The load port (00 R15): what the external loader may do to Memory before a run (70 R303-R305). -/

namespace Sys2Proof.Machine

/-- Why the loader refuses an image; Memory is then unchanged (70 R303, R304, 92 D18). -/
inductive LoadError where
  /-- Fewer than 2 bytes: no origin. -/
  | short
  /-- An odd number of bytes. -/
  | oddLength
  /-- origin + N > 65536. -/
  | overflow
  /-- "Once a run has started, the loader does not write Memory" (00 R15). -/
  | runStarted
  deriving DecidableEq, Repr

/-- The big-endian words of a byte string of even length (70 R304). -/
def wordsOf : List Byte → List Word
  | hi :: lo :: rest => (hi ++ lo) :: wordsOf rest
  | _ => []

/-- The words written at consecutive addresses from `a`, through the Memory Unit's write (00 R15). -/
def State.storeWords (s : State) (a : Word) : List Word → State
  | [] => s
  | w :: ws => (s.memWrite a w).storeWords (a + 1) ws

/-- Load one image: the first word is the origin, the rest are copied from there (70 R304). -/
def State.loadImage (s : State) (image : List Byte) : Except LoadError State :=
  if s.running || s.stopReason != .none then .error .runStarted
  else if image.length % 2 = 1 then .error .oddLength
  else
    match wordsOf image with
    | [] => .error .short
    | origin :: payload =>
      if origin.toNat + payload.length > 65536 then .error .overflow
      else .ok (s.storeWords origin payload)

end Sys2Proof.Machine
end

