-- ==== Sys2Proof/Safety.lean ====
section
/-! DEFINITION. What the claims are stated in: reachable states, runs that stop, the invariants of 10 and 40, and the
frames of 42 to 45. -/

namespace Sys2Proof

/-- The instructions that store (20 R68): only these write Memory other than by a keyboard poll. -/
def Instr.stores : Instr → Bool
  | .st _ _ | .sti _ _ | .str _ _ _ => true
  | .br _ _ | .addR _ _ _ | .addI _ _ _ | .ld _ _ | .jsr _ | .jsrr _ | .andR _ _ _ | .andI _ _ _ |
    .ldr _ _ _ | .rsv8 | .not _ _ | .ldi _ _ | .jmp _ | .rsvd | .lea _ _ | .trap _ | .ret | .getc | .out |
    .puts | .inp | .putsp | .halt => false

/-- The instructions that write the pc (10 R32). -/
def Instr.transfers : Instr → Bool
  | .br _ _ | .jsr _ | .jsrr _ | .jmp _ | .ret => true
  | .addR _ _ _ | .addI _ _ _ | .ld _ _ | .st _ _ | .andR _ _ _ | .andI _ _ _ | .ldr _ _ _ | .str _ _ _ |
    .rsv8 | .not _ _ | .ldi _ _ | .sti _ _ | .rsvd | .lea _ _ | .trap _ | .getc | .out | .puts | .inp |
    .putsp | .halt => false

/-- The instructions that run a trap routine (45 R230). -/
def Instr.traps : Instr → Bool
  | .trap _ | .getc | .out | .puts | .inp | .putsp | .halt => true
  | .br _ _ | .addR _ _ _ | .addI _ _ _ | .ld _ _ | .st _ _ | .jsr _ | .jsrr _ | .andR _ _ _ | .andI _ _ _ |
    .ldr _ _ _ | .str _ _ _ | .rsv8 | .not _ _ | .ldi _ _ | .sti _ _ | .jmp _ | .rsvd | .lea _ _ |
    .ret => false

/-- The instructions whose step may find no successor: they wait for a character (40 R133 (d)) or read a string
(45 R234 (e)). -/
def Instr.mayWait : Instr → Bool
  | .trap v => v == 0x20#8 || v == 0x22#8 || v == 0x23#8 || v == 0x24#8
  | .getc | .puts | .inp | .putsp => true
  | .br _ _ | .addR _ _ _ | .addI _ _ _ | .ld _ _ | .st _ _ | .jsr _ | .jsrr _ | .andR _ _ _ | .andI _ _ _ |
    .ldr _ _ _ | .str _ _ _ | .rsv8 | .not _ _ | .ldi _ _ | .sti _ _ | .jmp _ | .rsvd | .lea _ _ | .ret |
    .out | .halt => false

/-- The general register a TRAP writes last: R0 by GETC and IN (45 R232, R235), else R7 (45 R230). -/
def trapWritesLast (v : Byte) : Reg := if v = 0x20#8 ∨ v = 0x23#8 then .r0 else .r7

/-- The general register an instruction writes, the last one where it writes two (10 R37, 90 C2): COND is its flag. -/
def Instr.writesLast : Instr → Option Reg
  | .addR d _ _ | .addI d _ _ | .andR d _ _ | .andI d _ _ | .not d _ | .ld d _ | .ldi d _ | .ldr d _ _ | .lea d _ =>
    some d
  | .jsr _ | .jsrr _ | .out | .puts | .putsp | .halt => some .r7
  | .getc | .inp => some .r0
  | .trap v => some (trapWritesLast v)
  | .br _ _ | .jmp _ | .ret | .st _ _ | .sti _ _ | .str _ _ _ | .rsv8 | .rsvd => none

/-- The two reserved opcodes (46 R260). -/
def Instr.reserved : Instr → Bool
  | .rsv8 | .rsvd => true
  | .br _ _ | .addR _ _ _ | .addI _ _ _ | .ld _ _ | .st _ _ | .jsr _ | .jsrr _ | .andR _ _ _ | .andI _ _ _ |
    .ldr _ _ _ | .str _ _ _ | .not _ _ | .ldi _ _ | .sti _ _ | .jmp _ | .lea _ _ | .trap _ | .ret | .getc |
    .out | .puts | .inp | .putsp | .halt => false

end Sys2Proof

namespace Sys2Proof.Machine

/-- A state that steps lead to. -/
inductive Reaches : State → State → Prop where
  | refl (s : State) : Reaches s s
  | tail {s t u : State} : Reaches s t → step t = .next u → Reaches s u

/-- No run from `s` ends in an abort (46 R260): the safe runs. -/
def SafeRun (s : State) : Prop := ∀ t op, Reaches s t → t.stopReason ≠ .abort op

/-- The flag 40 R134 gives a value: Zero for 0, Negative for 0x8000 to 0xFFFF, Positive for 0x0001 to 0x7FFF. -/
def flagOf (v : Word) : Word :=
  if v.toNat = 0 then Config.condZ else if v.toNat ≥ 32768 then Config.condN else Config.condP

/-- "COND holds exactly one of three flag bits set" (10 R36). -/
def CondOneFlag (s : State) : Prop :=
  s.cond = Config.condP ∨ s.cond = Config.condZ ∨ s.cond = Config.condN

/-- COND is the flag of some general register, or still COND_RESET (10 R44, 40 R135). -/
def CondFollowsARegister (s : State) : Prop := s.cond = Config.condReset ∨ ∃ r, s.cond = flagOf (s.reg r)

/-- A running machine has no stop reason (10 R40, R41). -/
def RunStateLegal (s : State) : Prop := s.running = true → s.stopReason = .none

/-- A recorded abort names a reserved opcode (10 R41). -/
def AbortLegal (s : State) : Prop := ∀ op, s.stopReason = .abort op → op = 0x8#4 ∨ op = 0xD#4

/-- What every run keeps: Memory canonical, COND following a register, a legal run state. -/
def Invariant (s : State) : Prop :=
  Memory.wf s.mem ∧ CondFollowsARegister s ∧ RunStateLegal s ∧ AbortLegal s

/-- The run state is untouched. -/
def SameRunState (s t : State) : Prop := t.running = s.running ∧ t.stopReason = s.stopReason

/-- Every Word of Memory but the two keyboard words reads as before. -/
def SameOrdinaryMemory (s t : State) : Prop :=
  ∀ a, a ≠ Config.kbsrAddr → a ≠ Config.kbdrAddr → readWord t.mem a = readWord s.mem a

/-- `t` is `s` with Rd = v and COND the flag of v: no other register, not pc, no Word of Memory, no console. -/
def WritesRegister (s t : State) (d : Reg) (v : Word) : Prop :=
  t.reg d = v ∧ (∀ r, r ≠ d → t.reg r = s.reg r) ∧ t.cond = flagOf v ∧ t.pc = s.pc ∧
    (∀ a, readWord t.mem a = readWord s.mem a) ∧ t.mem = s.mem ∧ t.console = s.console ∧ SameRunState s t

/-- `t` is `s` with the Word `v` at address `ea`: no other Word of Memory, no register, not COND, pc or console. -/
def StoresWord (s t : State) (ea v : Word) : Prop :=
  readWord t.mem ea = v ∧ (∀ a, a ≠ ea → readWord t.mem a = readWord s.mem a) ∧
    (∀ r, t.reg r = s.reg r) ∧ t.cond = s.cond ∧ t.pc = s.pc ∧ t.console = s.console ∧ SameRunState s t

/-- `t` is `s` with pc = target: no register, not COND, no Word of Memory, no console. -/
def MovesPc (s t : State) (target : Word) : Prop :=
  t.pc = target ∧ (∀ r, t.reg r = s.reg r) ∧ t.cond = s.cond ∧ t.mem = s.mem ∧ t.console = s.console ∧
    SameRunState s t

/-- `t` is `s` with R7 the return address, COND its flag, and pc = target; nothing else differs. -/
def LinksAndJumps (s t : State) (target : Word) : Prop :=
  t.reg .r7 = s.pc ∧ (∀ r, r ≠ .r7 → t.reg r = s.reg r) ∧ t.cond = flagOf s.pc ∧ t.pc = target ∧
    t.mem = s.mem ∧ t.console = s.console ∧ SameRunState s t

/-- `u` is `s` after `MemRead(ea, 1)` and `w` the Word it returned (20 R62): a read of KBSR_ADDR polls first, a read
of any other address changes nothing. -/
def Reads (s u : State) (ea w : Word) : Prop :=
  w = readWord u.mem ea ∧ (ea = Config.kbsrAddr → u = s.pollKeyboard) ∧ (ea ≠ Config.kbsrAddr → u = s)

/-- The cells of a string at `a` (45 R234, R236): these non-zero Words, then a zero cell, none at KBSR_ADDR. -/
def StringAt (m : List Host.Cell) (a : Word) : List Word → Prop
  | [] => a ≠ Config.kbsrAddr ∧ readWord m a = 0x0000#16
  | w :: ws => a ≠ Config.kbsrAddr ∧ readWord m a = w ∧ w ≠ 0x0000#16 ∧ StringAt m (a + 1) ws

/-- `t` is `s` after some cells of a string (45 R234, R236): output was added, polls may have changed the two keyboard
words and the console's input side, and nothing else differs; a canonical Memory stays canonical. -/
def PrintsCells (s t : State) : Prop :=
  t.regs = s.regs ∧ t.pc = s.pc ∧ t.cond = s.cond ∧ SameRunState s t ∧ SameOrdinaryMemory s t ∧
    (∃ out, t.console.output = s.console.output ++ out) ∧ (Memory.wf s.mem → Memory.wf t.mem)

/-- `t` is `s` after a trap (60 R275) whose routine wrote `out` to the console and no register: R7 holds the return
address, COND is its flag, pc is the next instruction, and nothing else differs. -/
def TrapWrites (s t : State) (out : List Byte) : Prop :=
  t.reg .r7 = s.pc ∧ (∀ r, r ≠ .r7 → t.reg r = s.reg r) ∧ t.cond = flagOf s.pc ∧ t.pc = s.pc ∧ t.mem = s.mem ∧
    t.console = { s.console with output := s.console.output ++ out } ∧ SameRunState s t

/-- `t` is `s` after a trap that put the character `c` in R0 (45 R232, R235): R7 the return address, COND from R0,
the last register written, Memory and so the keyboard words untouched. -/
def TrapReads (s t : State) (c : Byte) : Prop :=
  t.reg .r0 = c.setWidth 16 ∧ t.reg .r7 = s.pc ∧ (∀ r, r ≠ .r0 → r ≠ .r7 → t.reg r = s.reg r) ∧
    t.cond = flagOf (c.setWidth 16) ∧ t.pc = s.pc ∧ t.mem = s.mem ∧ SameRunState s t

/-- `t` is `s` stopped by an abort with `op` (46 R260): the diagnostic written, the reason recorded, every register,
COND, pc and Memory as they were. -/
def Aborts (s t : State) (op : Opcode) : Prop :=
  (∀ r, t.reg r = s.reg r) ∧ t.cond = s.cond ∧ t.pc = s.pc ∧ t.mem = s.mem ∧
    t.console = { s.console with output := s.console.output ++ Config.abortMsg op } ∧
    t.running = false ∧ t.stopReason = .abort op

/-- The big-endian bytes of an image with this origin and payload (70 R304). -/
def imageBytes (origin : Word) (payload : List Word) : List Byte :=
  (origin :: payload).flatMap fun w => [w.extractLsb' 8 8, w.extractLsb' 0 8]

/-- `s` with `out` written before everything it has written. -/
def State.prependOutput (s : State) (out : List Byte) : State :=
  { s with console := { s.console with output := out ++ s.console.output } }

/-- The outcome with its next state, if any, passed through `f`. -/
def onNext (f : State → State) : Host.Outcome State Fault Refusal → Host.Outcome State Fault Refusal
  | .next s => .next (f s)
  | .fault r => .fault r
  | .refused r => .refused r

end Sys2Proof.Machine
end

