-- ==== Sys2Proof/Certificates/Slice0/Obligations.lean ====
section
/-! DEFINITION. The statements for the provers, each formalising rules of spec/. A statement that rests on a choice
of the model, or on an inference or decision the spec marks as its own, says so and names the log entry. -/

open Sys2Proof Sys2Proof.Machine

/-! ### The decoder and the encoder (30) -/

/-- 30 R101, R104: the word of an instruction decodes to it, every operand at every value. The opcode numbers and
field places are the spec's choice (log 13, 14). -/
def Obligations.DecodeOfEncodeIsTheInstruction : Prop :=
  ∀ i : Instr, i.wellFormed = true → decode (encode i) = i

/-- 30 R103, R104: every Word decodes to a well-formed instruction, and encoding that gives the Word back on every
bit the decoder reads (zeros elsewhere: log 18). -/
def Obligations.EncodeOfDecodeKeepsEveryReadBit : Prop :=
  ∀ w : Word, (decode w).wellFormed = true ∧ encode (decode w) = w &&& (decode w).readBits

/-- 30 R103: Words that differ only in ignored bits decode alike (a decision of the spec, D3, log 18). -/
def Obligations.IgnoredBitsDoNotChangeTheInstruction : Prop :=
  ∀ v w : Word, (v ^^^ w) &&& (decode v).readBits = 0#16 → decode w = decode v

/-- Words the spec's examples write out (95 2.1 to 2.9). -/
def Obligations.WordsOfTheSpecDecode : Prop :=
  decode 0x123E#16 = .addI .r1 .r0 0b11110#5 ∧ decode 0x1419#16 = .addR .r2 .r0 .r1 ∧
  decode 0x0E05#16 = .br 0b111#3 5#9 ∧ decode 0x4FFF#16 = .jsr 0x7FF#11 ∧ decode 0xF125#16 = .halt ∧
  decode 0x98C0#16 = .not .r4 .r3 ∧ decode 0xC1C0#16 = .ret ∧ decode 0xD000#16 = .rsvd ∧
  decode 0xA400#16 = .ldi .r2 0#9 ∧ decode 0x7983#16 = .str .r4 .r6 3#6 ∧ decode 0xF0FF#16 = .trap 0xFF#8

/-- 00 R10: with the sign bit n-1 clear the value is unchanged, with it set every bit from n up becomes 1 and the
others stay; and extending twice is extending once. -/
def Obligations.SignExtendIsExact : Prop :=
  ∀ (v : Word) (n : Nat), 1 ≤ n → n ≤ 15 →
    (v.getLsbD (n - 1) = false → signExtend v n = v) ∧
    (v.getLsbD (n - 1) = true → ∀ i, i < 16 → (signExtend v n).getLsbD i = (v.getLsbD i || decide (n ≤ i))) ∧
    signExtend (signExtend v n) n = signExtend v n

/-- 00 R11 (derived in the spec): each field extends to the two's-complement pattern of its signed value. -/
def Obligations.FieldsExtendToTheirSignedValue : Prop :=
  (∀ f : BitVec 5, (sext5 f).toNat = if f.toNat < 16 then f.toNat else f.toNat + 65536 - 32) ∧
  (∀ f : BitVec 6, (sext6 f).toNat = if f.toNat < 32 then f.toNat else f.toNat + 65536 - 64) ∧
  (∀ f : BitVec 9, (sext9 f).toNat = if f.toNat < 256 then f.toNat else f.toNat + 65536 - 512) ∧
  (∀ f : BitVec 11, (sext11 f).toNat = if f.toNat < 1024 then f.toNat else f.toNat + 65536 - 2048)

/-! ### Condition flags (40 R134-R136) -/

/-- 40 R134: COND becomes the one flag of Ri's value, and nothing else changes. -/
def Obligations.UpdateFlagsWritesTheFlagOfTheRegister : Prop :=
  ∀ (s : State) (i : Reg),
    (s.updateFlags i).cond = flagOf (s.reg i) ∧
    ((flagOf (s.reg i) = Config.condZ ↔ (s.reg i).toNat = 0) ∧
     (flagOf (s.reg i) = Config.condN ↔ (s.reg i).getLsbD 15 = true) ∧
     (flagOf (s.reg i) = Config.condP ↔ ((s.reg i).toNat ≠ 0 ∧ (s.reg i).getLsbD 15 = false))) ∧
    (∀ r, (s.updateFlags i).reg r = s.reg r) ∧ (s.updateFlags i).pc = s.pc ∧ (s.updateFlags i).mem = s.mem ∧
    (s.updateFlags i).console = s.console ∧ SameRunState s (s.updateFlags i)

/-- 10 R35, 30 R98 (the flag numbers and the mask order are the spec's choice D4, log 15): after a register write, a
BR is taken exactly when its n bit is set and the value is negative, its z bit and the value is zero, or its p bit
and the value is positive. -/
def Obligations.BranchTestsTheSignOfTheLastWrite : Prop :=
  ∀ (s : State) (d : Reg) (v : Word) (nzp : BitVec 3) (off : BitVec 9),
    ∃ t, exec (.br nzp off) (s.writeReg d v) = .next t ∧
      ((nzp.getLsbD 2 = true ∧ v.toInt < 0) ∨ (nzp.getLsbD 1 = true ∧ v.toInt = 0) ∨
        (nzp.getLsbD 0 = true ∧ v.toInt > 0) → t.pc = s.pc + sext9 off) ∧
      (¬((nzp.getLsbD 2 = true ∧ v.toInt < 0) ∨ (nzp.getLsbD 1 = true ∧ v.toInt = 0) ∨
        (nzp.getLsbD 0 = true ∧ v.toInt > 0)) → t.pc = s.pc)

/-- 10 R37 (derived in the spec), 40 R135: an instruction that writes a general register leaves in COND the flag of that
register, and BR, JMP, RET, ST, STI, STR and the reserved opcodes, which write none, leave COND. Of two registers the
last written counts: R0 for GETC and IN, R7 for every other TRAP, one without a routine too (log 10, 25). -/
def Obligations.ExactlyTheRegisterWritersSetCond : Prop :=
  ∀ (i : Instr) (s t : State), exec i s = .next t →
    (∀ r, i.writesLast = some r → t.cond = flagOf (t.reg r)) ∧ (i.writesLast = none → t.cond = s.cond)

/-- 10 R36, 40 R136: a step keeps COND at exactly one flag, and the step of an instruction that writes a general
register, an equal value too, leaves it so, as does a step that changes one. -/
def Obligations.StepKeepsExactlyOneFlag : Prop :=
  ∀ s t : State, step s = .next t →
    (CondOneFlag s → CondOneFlag t) ∧
    (s.running = true → (decode s.fetch.1).writesLast ≠ none → CondOneFlag t) ∧
    ((∃ r, t.reg r ≠ s.reg r) → CondOneFlag t)

/-- 40 R135, 90 C2 (the last write wins: log 25; COND_RESET: log 4): a step keeps COND the flag of some register. -/
def Obligations.StepKeepsCondFollowingARegister : Prop :=
  ∀ s t : State, step s = .next t → CondFollowsARegister s → CondFollowsARegister t

/-! ### Branch and operate instructions (41, 42) -/

/-- 41 R150: BR is taken exactly when some bit k of the mask and bit k of COND are both set, and writes only pc. -/
def Obligations.BranchIsTakenWhenTheMaskMeetsCond : Prop :=
  ∀ (nzp : BitVec 3) (off : BitVec 9) (s : State),
    ((∃ k, k < 3 ∧ nzp.getLsbD k = true ∧ s.cond.getLsbD k = true) →
      ∃ t, exec (.br nzp off) s = .next t ∧ MovesPc s t (s.pc + sext9 off)) ∧
    ((∀ k, k < 3 → nzp.getLsbD k = true → s.cond.getLsbD k = false) →
      ∃ t, exec (.br nzp off) s = .next t ∧ MovesPc s t s.pc)

/-- 42 R160, R161: ADD writes the sum modulo 2^16, whichever registers coincide. -/
def Obligations.AddWritesTheWrappedSum : Prop :=
  (∀ (d a b : Reg) (s : State), ∃ t v, exec (.addR d a b) s = .next t ∧ WritesRegister s t d v ∧
    v.toNat = ((s.reg a).toNat + (s.reg b).toNat) % 65536) ∧
  (∀ (d a : Reg) (imm : BitVec 5) (s : State), ∃ t v, exec (.addI d a imm) s = .next t ∧ WritesRegister s t d v ∧
    v.toNat = ((s.reg a).toNat + (sext5 imm).toNat) % 65536)

/-- 42 R163, R164: AND writes the bitwise AND. -/
def Obligations.AndWritesTheBitwiseAnd : Prop :=
  (∀ (d a b : Reg) (s : State), ∃ t v, exec (.andR d a b) s = .next t ∧ WritesRegister s t d v ∧
    ∀ k, v.getLsbD k = ((s.reg a).getLsbD k && (s.reg b).getLsbD k)) ∧
  (∀ (d a : Reg) (imm : BitVec 5) (s : State), ∃ t v, exec (.andI d a imm) s = .next t ∧ WritesRegister s t d v ∧
    ∀ k, v.getLsbD k = ((s.reg a).getLsbD k && (sext5 imm).getLsbD k))

/-- 42 R166: NOT writes 0xFFFF - SR. -/
def Obligations.NotWritesTheComplement : Prop :=
  ∀ (d r : Reg) (s : State), ∃ t v, exec (.not d r) s = .next t ∧ WritesRegister s t d v ∧
    v.toNat = 65535 - (s.reg r).toNat

/-! ### Memory (20) -/

/-- 20 R63: a write stores the value, at the keyboard words too, and does nothing else. -/
def Obligations.WriteStoresTheWordAndNothingElse : Prop :=
  ∀ (s : State) (a v : Word), Memory.wf s.mem → StoresWord s (s.memWrite a v) a v

/-- 20 R62, R67: a read of any address but KBSR_ADDR returns the stored Word and changes nothing. -/
def Obligations.ReadElsewhereHasNoSideEffect : Prop :=
  ∀ (s : State) (a : Word), a ≠ Config.kbsrAddr → s.memRead a = (readWord s.mem a, s)

/-- 20 R62, R66: a read of KBSR_ADDR. With a character available it returns KB_READY, puts the code zero-extended in
KBDR and consumes the character; with none it returns 0 and clears KBSR; every other Word, every register and the
output stay. The host's answers are the model's console fields (log 8, 9); KB_READY is a decision of the spec (D8,
log 17). -/
def Obligations.StatusReadPollsTheKeyboard : Prop :=
  ∀ s : State, Memory.wf s.mem →
    (∀ ps c cs, s.console.polls = true :: ps → s.console.input = c :: cs →
      (s.memRead Config.kbsrAddr).1 = Config.kbReady ∧
      readWord (s.memRead Config.kbsrAddr).2.mem Config.kbsrAddr = Config.kbReady ∧
      readWord (s.memRead Config.kbsrAddr).2.mem Config.kbdrAddr = c.setWidth 16 ∧
      (s.memRead Config.kbsrAddr).2.console = { s.console with polls := ps, input := cs }) ∧
    (∀ ps, s.console.polls = false :: ps →
      (s.memRead Config.kbsrAddr).1 = 0#16 ∧
      readWord (s.memRead Config.kbsrAddr).2.mem Config.kbsrAddr = 0#16 ∧
      readWord (s.memRead Config.kbsrAddr).2.mem Config.kbdrAddr = readWord s.mem Config.kbdrAddr ∧
      (s.memRead Config.kbsrAddr).2.console = { s.console with polls := ps }) ∧
    (s.console.input = [] → s.console.ended = true → (s.memRead Config.kbsrAddr).1 = 0#16) ∧
    ((s.memRead Config.kbsrAddr).1 = Config.kbReady ∨ (s.memRead Config.kbsrAddr).1 = 0#16) ∧
    (s.memRead Config.kbsrAddr).1 = readWord (s.memRead Config.kbsrAddr).2.mem Config.kbsrAddr ∧
    SameOrdinaryMemory s (s.memRead Config.kbsrAddr).2 ∧
    (∀ r, (s.memRead Config.kbsrAddr).2.reg r = s.reg r) ∧ (s.memRead Config.kbsrAddr).2.pc = s.pc ∧
    (s.memRead Config.kbsrAddr).2.cond = s.cond ∧ SameRunState s (s.memRead Config.kbsrAddr).2 ∧
    (s.memRead Config.kbsrAddr).2.console.output = s.console.output

/-- 20 R65 (derived in the spec): two status reads with two characters pending consume both, and KBDR holds the
second. The host's answers are the model's console fields (log 8). -/
def Obligations.TwoStatusReadsConsumeTwoCharacters : Prop :=
  ∀ (s : State) (ps : List Bool) (a b : Byte) (cs : List Byte), Memory.wf s.mem →
    s.console.polls = true :: true :: ps → s.console.input = a :: b :: cs →
    readWord ((s.memRead Config.kbsrAddr).2.memRead Config.kbsrAddr).2.mem Config.kbdrAddr = b.setWidth 16 ∧
    ((s.memRead Config.kbsrAddr).2.memRead Config.kbsrAddr).2.console = { s.console with polls := ps, input := cs }

/-- The canonical form of Memory (log 1) is kept by every step. -/
def Obligations.StepKeepsMemoryCanonical : Prop :=
  ∀ s t : State, step s = .next t → Memory.wf s.mem → Memory.wf t.mem

/-- 20 R78 (derived in the spec): a store into the next instruction's Word is what the next step fetches. -/
def Obligations.StoreIsSeenByTheNextFetch : Prop :=
  ∀ (s t : State) (i : Instr) (r : Reg), Memory.wf s.mem → s.running = true → s.pc ≠ Config.kbsrAddr →
    ((∃ off, i = .st r off ∧ s.pc + sext9 off = s.pc) ∨ (∃ b off, i = .str r b off ∧ s.reg b + sext6 off = s.pc)) →
    exec i s = .next t → step t = exec (decode (s.reg r)) { t with pc := s.pc + 1 }

/-! ### Loads, stores, LEA (43) -/

/-- 43 R180, R188: LD and LDR read one Word through the Memory Unit, the base register before the write, and write
only DR, COND and what the read itself changes; DR gets KB_READY or 0 from KBSR_ADDR. -/
def Obligations.LoadsWriteTheWordRead : Prop :=
  (∀ (d : Reg) (off : BitVec 9) (s : State), ∃ t u w, exec (.ld d off) s = .next t ∧
    Reads s u (s.pc + sext9 off) w ∧ WritesRegister u t d w ∧
    (Memory.wf s.mem → s.pc + sext9 off = Config.kbsrAddr → w = Config.kbReady ∨ w = 0x0000#16)) ∧
  (∀ (d b : Reg) (off : BitVec 6) (s : State), ∃ t u w, exec (.ldr d b off) s = .next t ∧
    Reads s u (s.reg b + sext6 off) w ∧ WritesRegister u t d w ∧
    (Memory.wf s.mem → s.reg b + sext6 off = Config.kbsrAddr → w = Config.kbReady ∨ w = 0x0000#16))

/-- 43 R184: LDI reads the pointer, then the Word it points to, in this order; either read may poll. -/
def Obligations.LoadIndirectReadsThroughThePointer : Prop :=
  ∀ (d : Reg) (off : BitVec 9) (s : State), ∃ t u ptr v w, exec (.ldi d off) s = .next t ∧
    Reads s u (s.pc + sext9 off) ptr ∧ Reads u v ptr w ∧ WritesRegister v t d w ∧
    (Memory.wf s.mem → s.pc + sext9 off = Config.kbsrAddr → ptr = Config.kbReady ∨ ptr = 0x0000#16) ∧
    (Memory.wf s.mem → ptr = Config.kbsrAddr → w = Config.kbReady ∨ w = 0x0000#16)

/-- 43 R182, R190: ST and STR store SR and change nothing else. -/
def Obligations.StoresWriteOneWord : Prop :=
  ∀ s : State, Memory.wf s.mem →
    (∀ (r : Reg) (off : BitVec 9), ∃ t, exec (.st r off) s = .next t ∧
      StoresWord s t (s.pc + sext9 off) (s.reg r)) ∧
    (∀ (r b : Reg) (off : BitVec 6), ∃ t, exec (.str r b off) s = .next t ∧
      StoresWord s t (s.reg b + sext6 off) (s.reg r))

/-- 43 R186: STI reads the pointer through the Memory Unit and stores SR there; a pointer at KBSR_ADDR is what the
poll produced. -/
def Obligations.StoreIndirectWritesThroughThePointer : Prop :=
  ∀ (r : Reg) (off : BitVec 9) (s : State), Memory.wf s.mem → ∃ t u ptr, exec (.sti r off) s = .next t ∧
    Reads s u (s.pc + sext9 off) ptr ∧ StoresWord u t ptr (s.reg r) ∧
    (s.pc + sext9 off = Config.kbsrAddr → ptr = Config.kbReady ∨ ptr = 0x0000#16)

/-- 43 R192: LEA writes the address itself and reads no Memory, at KBSR_ADDR too; COND follows the address. -/
def Obligations.LoadEffectiveAddressReadsNoMemory : Prop :=
  ∀ (d : Reg) (off : BitVec 9) (s : State), ∃ t, exec (.lea d off) s = .next t ∧
    WritesRegister s t d (s.pc + sext9 off)

/-! ### Jumps (44) -/

/-- 44 R210, R211: JMP goes to BaseR's value and RET to R7's, and nothing else changes. -/
def Obligations.JumpsGoToTheRegister : Prop :=
  (∀ (b : Reg) (s : State), ∃ t, exec (.jmp b) s = .next t ∧ MovesPc s t (s.reg b)) ∧
  (∀ s : State, ∃ t, exec .ret s = .next t ∧ MovesPc s t (s.reg .r7))

/-- 44 R213, R215: JSR and JSRR link in R7 and set COND from the link; JSRR R7 goes to the next instruction, since
BaseR is read after the write. -/
def Obligations.CallsLinkAndJump : Prop :=
  (∀ (off : BitVec 11) (s : State), ∃ t, exec (.jsr off) s = .next t ∧ LinksAndJumps s t (s.pc + sext11 off)) ∧
  (∀ (b : Reg) (s : State), b ≠ .r7 → ∃ t, exec (.jsrr b) s = .next t ∧ LinksAndJumps s t (s.reg b)) ∧
  (∀ s : State, ∃ t, exec (.jsrr .r7) s = .next t ∧ LinksAndJumps s t s.pc)

/-! ### Traps (45) -/

/-- 30 R109, 44 R211, 45 R231: an alias does what its core row does (the alias constructors are the model's, log 19). -/
def Obligations.AliasesRunAsTheirCoreRow : Prop :=
  ∀ (i : Instr) (s : State), exec i s = exec i.core s

/-- 45 R230, R238: a selector without a routine links, sets COND, and does nothing else (the spec's decision D10, the
default UNKNOWN_TRAP, log 10). -/
def Obligations.UnknownSelectorOnlyLinks : Prop :=
  ∀ (v : Byte) (s : State), namedSelectors.contains v = false →
    ∃ t, exec (.trap v) s = .next t ∧ TrapWrites s t []

/-- 45 R238: the other reading of an unknown selector, after trap entry, aborts with 0xF (log 10). -/
def Obligations.UnknownSelectorOtherReadingAborts : Prop :=
  ∀ s : State, ∃ t, routineUnknown .abort s = .next t ∧ Aborts s t 0xF#4

/-- 45 R232: GETC takes one character, scripted or free, and waits only when input has ended. The host's answers and
the end of input are the model's console fields (log 8, 9, D15); that COND follows R0, written after R7, is D19 (log 25),
and that the keyboard words stay is D13 (log 24). -/
def Obligations.GetcReadsOneCharacter : Prop :=
  ∀ s : State,
    (∀ c cs, s.console.input = c :: cs →
      ∃ t, exec .getc s = .next t ∧ TrapReads s t c ∧ t.console = { s.console with input := cs }) ∧
    (s.console.input = [] → s.console.ended = false →
      ∃ t c, exec .getc s = .next t ∧ TrapReads s t c ∧
        t.console = { s.console with draws := s.console.draws + 1 }) ∧
    (s.console.input = [] → s.console.ended = true → exec .getc s = .fault .awaitingInput)

/-- 45 R235: IN writes the prompt, takes one character, echoes it. The prompt is a free text (log 12); the host's
answers and the end of input are the model's console fields (log 8, 9, D15); that COND follows R0 is D19 (log 25), and
that the code is zero-extended and the keyboard words stay is D13 (log 24). -/
def Obligations.InPromptsReadsAndEchoes : Prop :=
  ∀ s : State,
    (∀ c cs, s.console.input = c :: cs →
      ∃ t, exec .inp s = .next t ∧ TrapReads s t c ∧
        t.console = { s.console with input := cs, output := s.console.output ++ Config.inPrompt ++ [c] }) ∧
    (s.console.input = [] → s.console.ended = false →
      ∃ t c, exec .inp s = .next t ∧ TrapReads s t c ∧
        t.console = { s.console with draws := s.console.draws + 1
                                     output := s.console.output ++ Config.inPrompt ++ [c] }) ∧
    (s.console.input = [] → s.console.ended = true → exec .inp s = .fault .awaitingInput)

/-- 45 R233: OUT writes R0's low 7 bits. -/
def Obligations.OutWritesSevenBits : Prop :=
  ∀ s : State, ∃ t, exec .out s = .next t ∧ TrapWrites s t [BitVec.ofNat 8 ((s.reg .r0).toNat % 128)]

/-- 45 R234: PUTS writes the low byte of each cell up to the zero cell, for a string that does not meet KBSR_ADDR
(the read path and the character width are decisions of the spec, D11, D12, log 22, 23). -/
def Obligations.PutsWritesTheString : Prop :=
  ∀ (s : State) (ws : List Word), StringAt s.mem (s.reg .r0) ws →
    ∃ t, exec .puts s = .next t ∧ TrapWrites s t (ws.map fun w => BitVec.ofNat 8 (w.toNat % 256))

/-- 45 R236: PUTSP writes the low byte of each cell always and its high byte if it is not zero, up to the zero cell,
for a string that does not meet KBSR_ADDR (D11, log 22). -/
def Obligations.PutspWritesThePackedString : Prop :=
  ∀ (s : State) (ws : List Word), StringAt s.mem (s.reg .r0) ws →
    ∃ t, exec .putsp s = .next t ∧ TrapWrites s t (ws.flatMap fun w =>
      if w.toNat < 256 then [BitVec.ofNat 8 w.toNat]
      else [BitVec.ofNat 8 (w.toNat % 256), BitVec.ofNat 8 (w.toNat / 256)])

/-- 45 R234 (e), R236: PUTS and PUTSP complete from every R0 if some Word of Memory that no poll can write is zero
(the wrap is the spec's decision D11, log 22). -/
def Obligations.StringRoutinesCompleteWhenSomeCellIsZero : Prop :=
  ∀ (s : State) (a : Word), a ≠ Config.kbsrAddr → a ≠ Config.kbdrAddr → readWord s.mem a = 0#16 →
    (∃ t, exec .puts s = .next t) ∧ (∃ t, exec .putsp s = .next t)

/-- 45 R234 (e), R236: whatever Memory holds, PUTS and PUTSP complete once a poll answers no or puts the character 0 in
KBDR, so at a scripted no, after the end of input and at a scripted 0; and they run for ever only where no ordinary
Word is 0 and the host's free answers stay yes (log 8, 9, 11; D11, log 22). -/
def Obligations.StringRoutinesRunForeverOnlyOnEndlessKeys : Prop :=
  ∀ (i : Instr) (s : State), i = .puts ∨ i = .putsp → Memory.wf s.mem →
    (false ∈ s.console.polls ∨ s.console.ended = true ∨ 0x00#8 ∈ s.console.input → ∃ t, exec i s = .next t) ∧
    ((∃ t, exec i s = .next t) ∨
      (exec i s = .fault .stringUnending ∧
        (∀ a, a ≠ Config.kbsrAddr → a ≠ Config.kbdrAddr → readWord s.mem a ≠ 0x0000#16) ∧
        ∃ d, s.console.draws ≤ d ∧ Config.yesRun d = none))

/-- 45 R234 (d), R236 (c): a cell at KBSR_ADDR polls. With no character available it reads 0 and ends the string
(D11, log 22; the host's answer is the model's console field, log 8). -/
def Obligations.StringEndsAtTheStatusWordWhenNoKeyIsAvailable : Prop :=
  ∀ (s : State) (ps : List Bool), Memory.wf s.mem → s.reg .r0 = Config.kbsrAddr → s.console.polls = false :: ps →
    ∀ i, i = .puts ∨ i = .putsp →
      ∃ t, exec i s = .next t ∧ t.console = { s.console with polls := ps } ∧
        readWord t.mem Config.kbsrAddr = 0#16 ∧
        (∀ a, a ≠ Config.kbsrAddr → readWord t.mem a = readWord s.mem a) ∧
        t.reg .r7 = s.pc ∧ (∀ r, r ≠ .r7 → t.reg r = s.reg r) ∧ t.cond = flagOf s.pc ∧ t.pc = s.pc ∧ SameRunState s t

/-- 45 R230, R234, R236, 60 R275: whatever the string, PUTS and PUTSP change only R7, COND, the console and, by polls,
the two keyboard words (D11, log 22); what was written before stays written. -/
def Obligations.StringRoutinesFrame : Prop :=
  ∀ (i : Instr) (s t : State), i = .puts ∨ i = .putsp → exec i s = .next t →
    t.reg .r7 = s.pc ∧ (∀ r, r ≠ .r7 → t.reg r = s.reg r) ∧ t.cond = flagOf s.pc ∧ t.pc = s.pc ∧
    SameOrdinaryMemory s t ∧ (∃ out, t.console.output = s.console.output ++ out) ∧ SameRunState s t

/-- 45 R237: HALT writes the shutdown message and stops with reason Halt, R7 and COND linked as by every TRAP, and no
step follows. -/
def Obligations.HaltStopsTheRun : Prop :=
  ∀ s : State, ∃ t, exec .halt s = .next t ∧
    t.reg .r7 = s.pc ∧ (∀ r, r ≠ .r7 → t.reg r = s.reg r) ∧ t.cond = flagOf s.pc ∧ t.pc = s.pc ∧ t.mem = s.mem ∧
    t.console = { s.console with output := s.console.output ++ Config.haltMsg } ∧
    t.running = false ∧ t.stopReason = .halt ∧ ∀ u, step t ≠ .next u

/-! ### Reserved opcodes (46) -/

/-- 46 R260: each reserved opcode writes the diagnostic and stops with Abort(op), changing no register, not COND and
no Word of Memory, and no step follows (the state after an abort is the spec's decision D22, log 26; the two numbers
are its choice D1, log 13). -/
def Obligations.ReservedOpcodesAbort : Prop :=
  ∀ s : State,
    (∃ t, exec .rsv8 s = .next t ∧ Aborts s t 0x8#4 ∧ ∀ u, step t ≠ .next u) ∧
    (∃ t, exec .rsvd s = .next t ∧ Aborts s t 0xD#4 ∧ ∀ u, step t ≠ .next u)

/-! ### The engine (40), reset and boot (70) -/

/-- 40 R131: a step of a running machine fetches through the Memory Unit (polling first when pc is KBSR_ADDR),
increments pc, wrapping, and runs exactly the decoded instruction. -/
def Obligations.StepRunsTheDecodedInstruction : Prop :=
  ∀ s : State, s.running = true →
    (s.pc ≠ Config.kbsrAddr →
      step s = exec (decode (readWord s.mem s.pc)) { s with pc := s.pc + 1 }) ∧
    (s.pc = Config.kbsrAddr →
      step s = exec (decode (readWord s.pollKeyboard.mem s.pc)) { s.pollKeyboard with pc := s.pc + 1 })

/-- The word `withFetchWord` places is the very next instruction to run (the host's interface, log 6, 31). -/
def Obligations.PlacedWordRunsNext : Prop :=
  ∀ (s : State) (w : Nat), Memory.wf s.mem → w < 65536 →
    step (s.withFetchWord 16 w) =
      exec (decode (BitVec.ofNat 16 w)) { s.withFetchWord 16 w with pc := (s.withFetchWord 16 w).pc + 1 }

/-- 20 R66, 46 R260 (c), 70 R309 (derived in the spec): a fetch from KBSR_ADDR consumes an available character and
aborts with 0x8 (KB_READY is 0x8000, log 17); with none it runs a no-op, whose poll clears KBSR (the host's answers are
the model's console fields, log 8; the opcode's number, log 13; the state after the abort, log 26). -/
def Obligations.FetchFromTheStatusWord : Prop :=
  ∀ s : State, Memory.wf s.mem → s.running = true → s.pc = Config.kbsrAddr →
    (∀ ps c cs, s.console.polls = true :: ps → s.console.input = c :: cs →
      ∃ t, step s = .next t ∧ t.running = false ∧ t.stopReason = .abort 0x8#4 ∧ t.pc = s.pc + 1 ∧
        t.cond = s.cond ∧ (∀ r, t.reg r = s.reg r) ∧ readWord t.mem Config.kbsrAddr = Config.kbReady ∧
        readWord t.mem Config.kbdrAddr = c.setWidth 16 ∧ SameOrdinaryMemory s t ∧
        t.console = { s.console with polls := ps, input := cs
                                     output := s.console.output ++ Config.abortMsg 0x8#4 }) ∧
    (∀ ps, s.console.polls = false :: ps →
      ∃ t, step s = .next t ∧ SameRunState s t ∧ t.pc = s.pc + 1 ∧ t.cond = s.cond ∧
        (∀ r, t.reg r = s.reg r) ∧ readWord t.mem Config.kbsrAddr = 0#16 ∧
        readWord t.mem Config.kbdrAddr = readWord s.mem Config.kbdrAddr ∧ SameOrdinaryMemory s t ∧
        t.console = { s.console with polls := ps })

/-- 40 R130, 70 R300, R301: the first step of a machine that has not run sets pc to 0x3000 and running, and resets
nothing (that this is a step of its own is the model's choice, log 6; that nothing is reset is D23, log 29). -/
def Obligations.RunStartsAtStartPc : Prop :=
  ∀ s : State, s.running = false → s.stopReason = .none →
    ∃ t, step s = .next t ∧ t.pc = 0x3000#16 ∧ t.running = true ∧ t.stopReason = .none ∧
      (∀ r, t.reg r = s.reg r) ∧ t.cond = s.cond ∧ t.mem = s.mem ∧ t.console = s.console

/-- 10 R40, 40 R137: a machine that has stopped takes no further step (the outcome's name is the model's, log 7). -/
def Obligations.StoppedMachineTakesNoStep : Prop :=
  ∀ s : State, s.running = false → s.stopReason ≠ .none → step s = .fault .stopped

/-- 40 R133 (a) to (c), R137: a step of a running machine that has a successor goes on running or stops by HALT or by
a reserved opcode (the two numbers: log 13; that no other abort exists is the default UNKNOWN_TRAP, D10, log 10). -/
def Obligations.StepGoesOnOrStopsWithAReason : Prop :=
  ∀ s t : State, s.running = true → s.stopReason = .none → step s = .next t →
    (t.running = true ∧ t.stopReason = .none) ∨
    (t.running = false ∧ (t.stopReason = .halt ∨ t.stopReason = .abort 0x8#4 ∨ t.stopReason = .abort 0xD#4))

/-- 10 R46, R47: after construction the machine is not running, has no stop reason, and holds 0x0000 at every address,
the keyboard words too; run() sets running. -/
def Obligations.ResetIsStoppedWithZeroMemory : Prop :=
  State.reset.running = false ∧ State.reset.stopReason = .none ∧
    (∀ a, readWord State.reset.mem a = 0x0000#16) ∧ State.reset.startRun.running = true

/-- 10 R43, R44: the registers and COND hold GPR_RESET and COND_RESET; that both are 0 is the model's choice of the
spec's defaults (log 3, 4). -/
def Obligations.ResetRegistersHoldTheDefaults : Prop :=
  (∀ r, State.reset.reg r = 0#16) ∧ State.reset.cond = 0#16

/-- The invariant of every run holds at reset (log 1, 4). -/
def Obligations.ResetMeetsTheInvariant : Prop := Invariant State.reset

/-- Every run keeps the invariant: Memory canonical (log 1), COND the flag of a register (40 R135, log 4), no stop
reason while running (10 R40, R41), only reserved opcodes recorded as aborts (10 R41, log 13, and log 10 for the unknown selectors). -/
def Obligations.EveryRunKeepsTheInvariant : Prop :=
  ∀ s t : State, Invariant s → Reaches s t → Invariant t

/-- 70 R309, 30 R107 (derived in the spec): over zero Memory, a step outside KBSR_ADDR only advances pc, wrapping. -/
def Obligations.ZeroMemoryRunsAsNoOps : Prop :=
  ∀ s : State, s.running = true → s.pc ≠ Config.kbsrAddr → readWord s.mem s.pc = 0x0000#16 →
    step s = .next { s with pc := s.pc + 1 }

/-! ### Rules about every instruction -/

/-- 10 R32: only BR, JMP, RET, JSR and JSRR write pc. -/
def Obligations.OnlyTransfersWriteThePc : Prop :=
  ∀ (i : Instr) (s t : State), exec i s = .next t → i.transfers = false → t.pc = s.pc

/-- 20 R62, R63, R68: only ST, STI and STR write a Word of Memory other than the two keyboard words. -/
def Obligations.OnlyStoresWriteOrdinaryMemory : Prop :=
  ∀ (i : Instr) (s t : State), exec i s = .next t → i.stores = false → SameOrdinaryMemory s t

/-- 20 R67, 45, 46: output is only ever added to, and only by a TRAP or a reserved opcode. -/
def Obligations.OnlyTrapsAndAbortsWriteTheConsole : Prop :=
  ∀ (i : Instr) (s t : State), exec i s = .next t →
    (∃ out, t.console.output = s.console.output ++ out) ∧
    (i.traps = false → i.reserved = false → t.console.output = s.console.output)

/-- 60 R271, 40 R133: every instruction completes in every state, except that GETC and IN may wait for a character
and PUTS and PUTSP may run over Memory without end (the names of the two waits are the model's, log 9, 11). -/
def Obligations.OnlyWaitingInstructionsMayNotComplete : Prop :=
  ∀ (i : Instr) (s : State), (∃ t, exec i s = .next t) ∨
    (i.mayWait = true ∧ (exec i s = .fault .awaitingInput ∨ exec i s = .fault .stringUnending))

/-- 00 R14, 40 R133: what has been written to the console never reaches the core. Two machines that differ only in
past output take steps that differ only in past output (the output list is the model's field, log 20). -/
def Obligations.PastOutputNeverReachesTheCore : Prop :=
  ∀ (s : State) (out : List Byte),
    step (s.prependOutput out) = onNext (fun t => t.prependOutput out) (step s)

/-! ### The load port (00 R15, 70 R303-R305) -/

/-- 70 R304, R305: an image that fits is copied big-endian from its origin; every other Word, every register and the
rest of the state stay (that loads stop once a run has started is 00 R15). -/
def Obligations.LoadCopiesTheImage : Prop :=
  ∀ (s : State) (origin : Word) (payload : List Word), Memory.wf s.mem → s.running = false → s.stopReason = .none →
    origin.toNat + payload.length ≤ 65536 →
    ∃ t, s.loadImage (imageBytes origin payload) = .ok t ∧ t = { s with mem := t.mem } ∧
      (∀ k (h : k < payload.length), readWord t.mem (origin + BitVec.ofNat 16 k) = payload[k]) ∧
      (∀ a : Word, a.toNat < origin.toNat ∨ origin.toNat + payload.length ≤ a.toNat →
        readWord t.mem a = readWord s.mem a)

/-- 70 R303, R304 (the spec's decision D18, log 27): a short, odd or overflowing image, or one that comes after the
start of the run, is refused by name. -/
def Obligations.LoadRefusesBadImages : Prop :=
  ∀ s : State,
    (s.running = true ∨ s.stopReason ≠ .none → ∀ image, s.loadImage image = .error .runStarted) ∧
    (s.running = false → s.stopReason = .none →
      s.loadImage [] = .error .short ∧
      (∀ image : List Byte, image.length % 2 = 1 → s.loadImage image = .error .oddLength) ∧
      (∀ (origin : Word) (payload : List Word), 65536 < origin.toNat + payload.length →
        s.loadImage (imageBytes origin payload) = .error .overflow))
end

