-- ==== Sys2Proof/Laws/Encoding.lean ====
section
/-! SUPPORT. Reading a field back out of each word layout (30 R101), and what sign extension does to a field. -/

namespace Sys2Proof

@[simp] theorem Reg.ofBits_bits (r : Reg) : Reg.ofBits r.bits = r := by cases r <;> rfl

@[simp] theorem Reg.bits_ofBits (b : BitVec 3) : (Reg.ofBits b).bits = b := by
  revert b
  decide

theorem pack9_getLsbD (op : Opcode) (hi : BitVec 3) (lo : BitVec 9) (i : Nat) :
    (pack9 op hi lo).getLsbD i =
      if i < 9 then lo.getLsbD i else if i < 12 then hi.getLsbD (i - 9) else op.getLsbD (i - 12) := by
  unfold pack9
  rw [BitVec.getLsbD_append, BitVec.getLsbD_append]
  split
  · rfl
  · split <;> split <;> first | rfl | omega

theorem pack6_getLsbD (op : Opcode) (hi mid : BitVec 3) (lo : BitVec 6) (i : Nat) :
    (pack6 op hi mid lo).getLsbD i =
      if i < 6 then lo.getLsbD i else if i < 9 then mid.getLsbD (i - 6)
      else if i < 12 then hi.getLsbD (i - 9) else op.getLsbD (i - 12) := by
  unfold pack6
  rw [BitVec.getLsbD_append, BitVec.getLsbD_append, BitVec.getLsbD_append]
  repeat' split
  all_goals first | rfl | omega

theorem pack11_getLsbD (op : Opcode) (long : BitVec 1) (lo : BitVec 11) (i : Nat) :
    (pack11 op long lo).getLsbD i =
      if i < 11 then lo.getLsbD i else if i < 12 then long.getLsbD (i - 11) else op.getLsbD (i - 12) := by
  unfold pack11
  rw [BitVec.getLsbD_append, BitVec.getLsbD_append]
  repeat' split
  all_goals first | rfl | omega

theorem pack8_getLsbD (op : Opcode) (lo : BitVec 8) (i : Nat) :
    (pack8 op lo).getLsbD i =
      if i < 8 then lo.getLsbD i else if i < 12 then false else op.getLsbD (i - 12) := by
  unfold pack8
  rw [BitVec.getLsbD_append, BitVec.getLsbD_append]
  repeat' split
  all_goals first | rfl | omega | simp

/-- A field of `k` bits at bit `s` is `f` when each of its bits is. -/
theorem extract_eq_of_bits {k : Nat} (w : Word) (s : Nat) (f : BitVec k)
    (h : ∀ i, i < k → w.getLsbD (s + i) = f.getLsbD i) : w.extractLsb' s k = f := by
  apply BitVec.eq_of_getLsbD_eq
  intro i hi
  simp only [BitVec.getLsbD_extractLsb', hi, decide_true, Bool.true_and]
  exact h i hi

@[simp] theorem opcodeOf_pack9 (op : Opcode) (hi : BitVec 3) (lo : BitVec 9) : opcodeOf (pack9 op hi lo) = op := by
  refine extract_eq_of_bits _ 12 op fun i _ => ?_
  rw [pack9_getLsbD, if_neg (by omega), if_neg (by omega), Nat.add_sub_cancel_left]
@[simp] theorem nzpOf_pack9 (op : Opcode) (hi : BitVec 3) (lo : BitVec 9) : nzpOf (pack9 op hi lo) = hi := by
  refine extract_eq_of_bits _ 9 hi fun i hi => ?_
  rw [pack9_getLsbD, if_neg (by omega), if_pos (by omega), Nat.add_sub_cancel_left]
@[simp] theorem drOf_pack9 (op : Opcode) (r : Reg) (lo : BitVec 9) : drOf (pack9 op r.bits lo) = r := by
  show Reg.ofBits (nzpOf (pack9 op r.bits lo)) = r
  rw [nzpOf_pack9, Reg.ofBits_bits]
@[simp] theorem off9Of_pack9 (op : Opcode) (hi : BitVec 3) (lo : BitVec 9) : off9Of (pack9 op hi lo) = lo := by
  refine extract_eq_of_bits _ 0 lo fun i hi => ?_
  rw [pack9_getLsbD, Nat.zero_add, if_pos hi]

@[simp] theorem opcodeOf_pack6 (op : Opcode) (hi mid : BitVec 3) (lo : BitVec 6) :
    opcodeOf (pack6 op hi mid lo) = op := by
  refine extract_eq_of_bits _ 12 op fun i _ => ?_
  rw [pack6_getLsbD, if_neg (by omega), if_neg (by omega), if_neg (by omega), Nat.add_sub_cancel_left]
@[simp] theorem drOf_pack6 (op : Opcode) (r : Reg) (mid : BitVec 3) (lo : BitVec 6) :
    drOf (pack6 op r.bits mid lo) = r := by
  unfold drOf
  rw [extract_eq_of_bits _ 9 r.bits, Reg.ofBits_bits]
  intro i hi
  rw [pack6_getLsbD, if_neg (by omega), if_neg (by omega), if_pos (by omega), Nat.add_sub_cancel_left]
@[simp] theorem sr1Of_pack6 (op : Opcode) (hi : BitVec 3) (r : Reg) (lo : BitVec 6) :
    sr1Of (pack6 op hi r.bits lo) = r := by
  unfold sr1Of
  rw [extract_eq_of_bits _ 6 r.bits, Reg.ofBits_bits]
  intro i hi
  rw [pack6_getLsbD, if_neg (by omega), if_pos (by omega), Nat.add_sub_cancel_left]
@[simp] theorem off6Of_pack6 (op : Opcode) (hi mid : BitVec 3) (lo : BitVec 6) :
    off6Of (pack6 op hi mid lo) = lo := by
  refine extract_eq_of_bits _ 0 lo fun i hi => ?_
  rw [pack6_getLsbD, Nat.zero_add, if_pos hi]
theorem immModeOf_pack6 (op : Opcode) (hi mid : BitVec 3) (lo : BitVec 6) :
    immModeOf (pack6 op hi mid lo) = lo.getLsbD 5 := by
  unfold immModeOf
  rw [pack6_getLsbD, if_pos (by omega)]
theorem longOf_pack6 (op : Opcode) (hi mid : BitVec 3) (lo : BitVec 6) :
    longOf (pack6 op hi mid lo) = hi.getLsbD 2 := by
  unfold longOf
  rw [pack6_getLsbD, if_neg (by omega), if_neg (by omega), if_pos (by omega)]
@[simp] theorem sr2Of_pack6 (op : Opcode) (hi mid : BitVec 3) (r : Reg) :
    sr2Of (pack6 op hi mid (0#3 ++ r.bits)) = r := by
  unfold sr2Of
  rw [extract_eq_of_bits _ 0 r.bits, Reg.ofBits_bits]
  intro i hi
  rw [pack6_getLsbD, Nat.zero_add, if_pos (by omega)]
  rw [BitVec.getLsbD_append, if_pos hi]
@[simp] theorem immModeOf_pack6_reg (op : Opcode) (hi mid : BitVec 3) (r : Reg) :
    immModeOf (pack6 op hi mid (0#3 ++ r.bits)) = false := by
  rw [immModeOf_pack6, BitVec.getLsbD_append, if_neg (by omega)]
  rfl
@[simp] theorem imm5Of_pack6 (op : Opcode) (hi mid : BitVec 3) (f : BitVec 5) :
    imm5Of (pack6 op hi mid (1#1 ++ f)) = f := by
  refine extract_eq_of_bits _ 0 f fun i hi => ?_
  rw [pack6_getLsbD, Nat.zero_add, if_pos (by omega)]
  rw [BitVec.getLsbD_append, if_pos hi]
@[simp] theorem immModeOf_pack6_imm (op : Opcode) (hi mid : BitVec 3) (f : BitVec 5) :
    immModeOf (pack6 op hi mid (1#1 ++ f)) = true := by
  rw [immModeOf_pack6, BitVec.getLsbD_append, if_neg (by omega)]
  rfl

@[simp] theorem opcodeOf_pack11 (op : Opcode) (long : BitVec 1) (lo : BitVec 11) :
    opcodeOf (pack11 op long lo) = op := by
  refine extract_eq_of_bits _ 12 op fun i _ => ?_
  rw [pack11_getLsbD, if_neg (by omega), if_neg (by omega), Nat.add_sub_cancel_left]
@[simp] theorem longOf_pack11 (op : Opcode) (long : BitVec 1) (lo : BitVec 11) :
    longOf (pack11 op long lo) = long.getLsbD 0 := by
  unfold longOf
  rw [pack11_getLsbD, if_neg (by omega), if_pos (by omega)]
@[simp] theorem off11Of_pack11 (op : Opcode) (long : BitVec 1) (lo : BitVec 11) :
    off11Of (pack11 op long lo) = lo := by
  refine extract_eq_of_bits _ 0 lo fun i hi => ?_
  rw [pack11_getLsbD, Nat.zero_add, if_pos hi]

@[simp] theorem opcodeOf_pack8 (op : Opcode) (lo : BitVec 8) : opcodeOf (pack8 op lo) = op := by
  refine extract_eq_of_bits _ 12 op fun i _ => ?_
  rw [pack8_getLsbD, if_neg (by omega), if_neg (by omega), Nat.add_sub_cancel_left]
@[simp] theorem trapvectOf_pack8 (op : Opcode) (lo : BitVec 8) : trapvectOf (pack8 op lo) = lo := by
  refine extract_eq_of_bits _ 0 lo fun i hi => ?_
  rw [pack8_getLsbD, Nat.zero_add, if_pos hi]

/-! ### The decoder, one lemma per opcode (30 R102) -/

theorem decode_op0 {w : Word} (h : opcodeOf w = 0x0#4) :
    decode w = .br (nzpOf w) (off9Of w) := by
  unfold decode
  rw [h]
  rfl

theorem decode_op1 {w : Word} (h : opcodeOf w = 0x1#4) :
    decode w = if immModeOf w then .addI (drOf w) (sr1Of w) (imm5Of w) else .addR (drOf w) (sr1Of w) (sr2Of w) := by
  unfold decode
  rw [h]
  rfl

theorem decode_op2 {w : Word} (h : opcodeOf w = 0x2#4) :
    decode w = .ld (drOf w) (off9Of w) := by
  unfold decode
  rw [h]
  rfl

theorem decode_op3 {w : Word} (h : opcodeOf w = 0x3#4) :
    decode w = .st (drOf w) (off9Of w) := by
  unfold decode
  rw [h]
  rfl

theorem decode_op4 {w : Word} (h : opcodeOf w = 0x4#4) :
    decode w = if longOf w then .jsr (off11Of w) else .jsrr (sr1Of w) := by
  unfold decode
  rw [h]
  rfl

theorem decode_op5 {w : Word} (h : opcodeOf w = 0x5#4) :
    decode w = if immModeOf w then .andI (drOf w) (sr1Of w) (imm5Of w) else .andR (drOf w) (sr1Of w) (sr2Of w) := by
  unfold decode
  rw [h]
  rfl

theorem decode_op6 {w : Word} (h : opcodeOf w = 0x6#4) :
    decode w = .ldr (drOf w) (sr1Of w) (off6Of w) := by
  unfold decode
  rw [h]
  rfl

theorem decode_op7 {w : Word} (h : opcodeOf w = 0x7#4) :
    decode w = .str (drOf w) (sr1Of w) (off6Of w) := by
  unfold decode
  rw [h]
  rfl

theorem decode_op8 {w : Word} (h : opcodeOf w = 0x8#4) :
    decode w = .rsv8 := by
  unfold decode
  rw [h]
  rfl

theorem decode_op9 {w : Word} (h : opcodeOf w = 0x9#4) :
    decode w = .not (drOf w) (sr1Of w) := by
  unfold decode
  rw [h]
  rfl

theorem decode_opA {w : Word} (h : opcodeOf w = 0xA#4) :
    decode w = .ldi (drOf w) (off9Of w) := by
  unfold decode
  rw [h]
  rfl

theorem decode_opB {w : Word} (h : opcodeOf w = 0xB#4) :
    decode w = .sti (drOf w) (off9Of w) := by
  unfold decode
  rw [h]
  rfl

theorem decode_opC {w : Word} (h : opcodeOf w = 0xC#4) :
    decode w = decodeJmp (sr1Of w) := by
  unfold decode
  rw [h]
  rfl

theorem decode_opD {w : Word} (h : opcodeOf w = 0xD#4) :
    decode w = .rsvd := by
  unfold decode
  rw [h]
  rfl

theorem decode_opE {w : Word} (h : opcodeOf w = 0xE#4) :
    decode w = .lea (drOf w) (off9Of w) := by
  unfold decode
  rw [h]
  rfl

theorem decode_opF {w : Word} (h : opcodeOf w = 0xF#4) :
    decode w = decodeTrap (trapvectOf w) := by
  unfold decode
  rw [h]
  rfl

/-- Every Word has one of the sixteen opcodes (30 R91). -/
theorem opcode_cases (c : Opcode) :
    c = 0x0#4 ∨ c = 0x1#4 ∨ c = 0x2#4 ∨ c = 0x3#4 ∨ c = 0x4#4 ∨ c = 0x5#4 ∨ c = 0x6#4 ∨ c = 0x7#4 ∨
    c = 0x8#4 ∨ c = 0x9#4 ∨ c = 0xA#4 ∨ c = 0xB#4 ∨ c = 0xC#4 ∨ c = 0xD#4 ∨ c = 0xE#4 ∨ c = 0xF#4 := by
  revert c
  decide

end Sys2Proof
end

