-- ==== Sys2Proof/Laws/State.lean ====
section
/-! SUPPORT. What each update of the state does to each field, one lemma a field, for simp. -/

namespace Sys2Proof.Machine

/-! ### The register file -/

theorem Regs.get_set (g : Regs) (i j : Reg) (v : Word) : (g.set i v).get j = if j = i then v else g.get j := by
  cases i <;> cases j <;> rfl

@[simp] theorem Regs.get_set_same (g : Regs) (i : Reg) (v : Word) : (g.set i v).get i = v := by
  cases i <;> rfl

theorem Regs.get_set_other (g : Regs) {i j : Reg} (v : Word) (h : j ≠ i) : (g.set i v).get j = g.get j := by
  rw [Regs.get_set, if_neg h]

/-- Two register files that read alike are equal. -/
theorem Regs.ext_get {g h : Regs} (e : ∀ i, g.get i = h.get i) : g = h := by
  have e0 := e .r0
  have e1 := e .r1
  have e2 := e .r2
  have e3 := e .r3
  have e4 := e .r4
  have e5 := e .r5
  have e6 := e .r6
  have e7 := e .r7
  cases g
  cases h
  simp only [Regs.get] at e0 e1 e2 e3 e4 e5 e6 e7
  subst e0 e1 e2 e3 e4 e5 e6 e7
  rfl

/-! ### setReg -/

@[simp] theorem State.setReg_regs (s : State) (i : Reg) (v : Word) : (s.setReg i v).regs = s.regs.set i v := rfl
@[simp] theorem State.setReg_pc (s : State) (i : Reg) (v : Word) : (s.setReg i v).pc = s.pc := rfl
@[simp] theorem State.setReg_cond (s : State) (i : Reg) (v : Word) : (s.setReg i v).cond = s.cond := rfl
@[simp] theorem State.setReg_mem (s : State) (i : Reg) (v : Word) : (s.setReg i v).mem = s.mem := rfl
@[simp] theorem State.setReg_running (s : State) (i : Reg) (v : Word) : (s.setReg i v).running = s.running := rfl
@[simp] theorem State.setReg_stopReason (s : State) (i : Reg) (v : Word) : (s.setReg i v).stopReason = s.stopReason := rfl
@[simp] theorem State.setReg_console (s : State) (i : Reg) (v : Word) : (s.setReg i v).console = s.console := rfl
theorem State.setReg_reg (s : State) (i j : Reg) (v : Word) :
    (s.setReg i v).reg j = if j = i then v else s.reg j := Regs.get_set s.regs i j v

/-! ### updateFlags -/

@[simp] theorem State.updateFlags_regs (s : State) (i : Reg) : (s.updateFlags i).regs = s.regs := rfl
@[simp] theorem State.updateFlags_pc (s : State) (i : Reg) : (s.updateFlags i).pc = s.pc := rfl
@[simp] theorem State.updateFlags_cond (s : State) (i : Reg) : (s.updateFlags i).cond = condOf (s.reg i) := rfl
@[simp] theorem State.updateFlags_mem (s : State) (i : Reg) : (s.updateFlags i).mem = s.mem := rfl
@[simp] theorem State.updateFlags_running (s : State) (i : Reg) : (s.updateFlags i).running = s.running := rfl
@[simp] theorem State.updateFlags_stopReason (s : State) (i : Reg) : (s.updateFlags i).stopReason = s.stopReason := rfl
@[simp] theorem State.updateFlags_console (s : State) (i : Reg) : (s.updateFlags i).console = s.console := rfl
@[simp] theorem State.updateFlags_reg (s : State) (i : Reg) (r : Reg) : (s.updateFlags i).reg r = s.reg r := rfl

/-! ### writeReg -/

@[simp] theorem State.writeReg_regs (s : State) (i : Reg) (v : Word) : (s.writeReg i v).regs = s.regs.set i v := rfl
@[simp] theorem State.writeReg_pc (s : State) (i : Reg) (v : Word) : (s.writeReg i v).pc = s.pc := rfl
@[simp] theorem State.writeReg_mem (s : State) (i : Reg) (v : Word) : (s.writeReg i v).mem = s.mem := rfl
@[simp] theorem State.writeReg_running (s : State) (i : Reg) (v : Word) : (s.writeReg i v).running = s.running := rfl
@[simp] theorem State.writeReg_stopReason (s : State) (i : Reg) (v : Word) : (s.writeReg i v).stopReason = s.stopReason := rfl
@[simp] theorem State.writeReg_console (s : State) (i : Reg) (v : Word) : (s.writeReg i v).console = s.console := rfl
@[simp] theorem State.writeReg_cond (s : State) (i : Reg) (v : Word) : (s.writeReg i v).cond = condOf v := by
  cases i <;> rfl
@[simp] theorem State.writeReg_reg_same (s : State) (i : Reg) (v : Word) : (s.writeReg i v).reg i = v :=
  Regs.get_set_same s.regs i v
theorem State.writeReg_reg (s : State) (i j : Reg) (v : Word) :
    (s.writeReg i v).reg j = if j = i then v else s.reg j := Regs.get_set s.regs i j v
theorem State.writeReg_reg_other (s : State) {i j : Reg} (v : Word) (h : j ≠ i) :
    (s.writeReg i v).reg j = s.reg j := Regs.get_set_other s.regs v h

/-! ### setPc -/

@[simp] theorem State.setPc_regs (s : State) (a : Word) : (s.setPc a).regs = s.regs := rfl
@[simp] theorem State.setPc_pc (s : State) (a : Word) : (s.setPc a).pc = a := rfl
@[simp] theorem State.setPc_cond (s : State) (a : Word) : (s.setPc a).cond = s.cond := rfl
@[simp] theorem State.setPc_mem (s : State) (a : Word) : (s.setPc a).mem = s.mem := rfl
@[simp] theorem State.setPc_running (s : State) (a : Word) : (s.setPc a).running = s.running := rfl
@[simp] theorem State.setPc_stopReason (s : State) (a : Word) : (s.setPc a).stopReason = s.stopReason := rfl
@[simp] theorem State.setPc_console (s : State) (a : Word) : (s.setPc a).console = s.console := rfl
@[simp] theorem State.setPc_reg (s : State) (a : Word) (r : Reg) : (s.setPc a).reg r = s.reg r := rfl

/-! ### memWrite -/

@[simp] theorem State.memWrite_regs (s : State) (a v : Word) : (s.memWrite a v).regs = s.regs := rfl
@[simp] theorem State.memWrite_pc (s : State) (a v : Word) : (s.memWrite a v).pc = s.pc := rfl
@[simp] theorem State.memWrite_cond (s : State) (a v : Word) : (s.memWrite a v).cond = s.cond := rfl
@[simp] theorem State.memWrite_mem (s : State) (a v : Word) : (s.memWrite a v).mem = writeWord s.mem a v := rfl
@[simp] theorem State.memWrite_running (s : State) (a v : Word) : (s.memWrite a v).running = s.running := rfl
@[simp] theorem State.memWrite_stopReason (s : State) (a v : Word) : (s.memWrite a v).stopReason = s.stopReason := rfl
@[simp] theorem State.memWrite_console (s : State) (a v : Word) : (s.memWrite a v).console = s.console := rfl
@[simp] theorem State.memWrite_reg (s : State) (a v : Word) (r : Reg) : (s.memWrite a v).reg r = s.reg r := rfl

/-! ### consoleWrite -/

@[simp] theorem State.consoleWrite_regs (s : State) (b : Byte) : (s.consoleWrite b).regs = s.regs := rfl
@[simp] theorem State.consoleWrite_pc (s : State) (b : Byte) : (s.consoleWrite b).pc = s.pc := rfl
@[simp] theorem State.consoleWrite_cond (s : State) (b : Byte) : (s.consoleWrite b).cond = s.cond := rfl
@[simp] theorem State.consoleWrite_mem (s : State) (b : Byte) : (s.consoleWrite b).mem = s.mem := rfl
@[simp] theorem State.consoleWrite_running (s : State) (b : Byte) : (s.consoleWrite b).running = s.running := rfl
@[simp] theorem State.consoleWrite_stopReason (s : State) (b : Byte) : (s.consoleWrite b).stopReason = s.stopReason := rfl
@[simp] theorem State.consoleWrite_console (s : State) (b : Byte) : (s.consoleWrite b).console = s.console.write b := rfl
@[simp] theorem State.consoleWrite_reg (s : State) (b : Byte) (r : Reg) : (s.consoleWrite b).reg r = s.reg r := rfl

/-! ### consoleWriteAll -/

@[simp] theorem State.consoleWriteAll_regs (s : State) (bs : List Byte) : (s.consoleWriteAll bs).regs = s.regs := rfl
@[simp] theorem State.consoleWriteAll_pc (s : State) (bs : List Byte) : (s.consoleWriteAll bs).pc = s.pc := rfl
@[simp] theorem State.consoleWriteAll_cond (s : State) (bs : List Byte) : (s.consoleWriteAll bs).cond = s.cond := rfl
@[simp] theorem State.consoleWriteAll_mem (s : State) (bs : List Byte) : (s.consoleWriteAll bs).mem = s.mem := rfl
@[simp] theorem State.consoleWriteAll_running (s : State) (bs : List Byte) : (s.consoleWriteAll bs).running = s.running := rfl
@[simp] theorem State.consoleWriteAll_stopReason (s : State) (bs : List Byte) : (s.consoleWriteAll bs).stopReason = s.stopReason := rfl
@[simp] theorem State.consoleWriteAll_console (s : State) (bs : List Byte) : (s.consoleWriteAll bs).console = { s.console with output := s.console.output ++ bs } := rfl
@[simp] theorem State.consoleWriteAll_reg (s : State) (bs : List Byte) (r : Reg) : (s.consoleWriteAll bs).reg r = s.reg r := rfl

/-! ### link -/

@[simp] theorem State.link_regs (s : State) : (s.link).regs = s.regs.set .r7 s.pc := rfl
@[simp] theorem State.link_pc (s : State) : (s.link).pc = s.pc := rfl
@[simp] theorem State.link_mem (s : State) : (s.link).mem = s.mem := rfl
@[simp] theorem State.link_running (s : State) : (s.link).running = s.running := rfl
@[simp] theorem State.link_stopReason (s : State) : (s.link).stopReason = s.stopReason := rfl
@[simp] theorem State.link_console (s : State) : (s.link).console = s.console := rfl
@[simp] theorem State.link_cond (s : State) : s.link.cond = condOf s.pc := rfl
@[simp] theorem State.link_reg_r7 (s : State) : s.link.reg .r7 = s.pc := rfl
theorem State.link_reg (s : State) (j : Reg) : s.link.reg j = if j = .r7 then s.pc else s.reg j :=
  Regs.get_set s.regs .r7 j s.pc
@[simp] theorem State.link_reg_r0 (s : State) : s.link.reg .r0 = s.reg .r0 := rfl

/-! ### trapEntry -/

@[simp] theorem State.trapEntry_regs (s : State) : (s.trapEntry).regs = s.regs.set .r7 s.pc := rfl
@[simp] theorem State.trapEntry_pc (s : State) : (s.trapEntry).pc = s.pc := rfl
@[simp] theorem State.trapEntry_mem (s : State) : (s.trapEntry).mem = s.mem := rfl
@[simp] theorem State.trapEntry_running (s : State) : (s.trapEntry).running = s.running := rfl
@[simp] theorem State.trapEntry_stopReason (s : State) : (s.trapEntry).stopReason = s.stopReason := rfl
@[simp] theorem State.trapEntry_console (s : State) : (s.trapEntry).console = s.console := rfl
@[simp] theorem State.trapEntry_cond (s : State) : s.trapEntry.cond = condOf s.pc := rfl
@[simp] theorem State.trapEntry_reg_r7 (s : State) : s.trapEntry.reg .r7 = s.pc := rfl
theorem State.trapEntry_reg (s : State) (j : Reg) : s.trapEntry.reg j = if j = .r7 then s.pc else s.reg j :=
  Regs.get_set s.regs .r7 j s.pc
@[simp] theorem State.trapEntry_reg_r0 (s : State) : s.trapEntry.reg .r0 = s.reg .r0 := rfl

/-! ### stop -/

@[simp] theorem State.stop_regs (s : State) (why : StopReason) : (s.stop why).regs = s.regs := rfl
@[simp] theorem State.stop_pc (s : State) (why : StopReason) : (s.stop why).pc = s.pc := rfl
@[simp] theorem State.stop_cond (s : State) (why : StopReason) : (s.stop why).cond = s.cond := rfl
@[simp] theorem State.stop_mem (s : State) (why : StopReason) : (s.stop why).mem = s.mem := rfl
@[simp] theorem State.stop_running (s : State) (why : StopReason) : (s.stop why).running = false := rfl
@[simp] theorem State.stop_stopReason (s : State) (why : StopReason) : (s.stop why).stopReason = why := rfl
@[simp] theorem State.stop_console (s : State) (why : StopReason) : (s.stop why).console = s.console := rfl
@[simp] theorem State.stop_reg (s : State) (why : StopReason) (r : Reg) : (s.stop why).reg r = s.reg r := rfl

/-! ### abort -/

@[simp] theorem State.abort_regs (s : State) (op : Opcode) : (s.abort op).regs = s.regs := rfl
@[simp] theorem State.abort_pc (s : State) (op : Opcode) : (s.abort op).pc = s.pc := rfl
@[simp] theorem State.abort_cond (s : State) (op : Opcode) : (s.abort op).cond = s.cond := rfl
@[simp] theorem State.abort_mem (s : State) (op : Opcode) : (s.abort op).mem = s.mem := rfl
@[simp] theorem State.abort_running (s : State) (op : Opcode) : (s.abort op).running = false := rfl
@[simp] theorem State.abort_stopReason (s : State) (op : Opcode) : (s.abort op).stopReason = .abort op := rfl
@[simp] theorem State.abort_console (s : State) (op : Opcode) : (s.abort op).console = { s.console with output := s.console.output ++ Config.abortMsg op } := rfl
@[simp] theorem State.abort_reg (s : State) (op : Opcode) (r : Reg) : (s.abort op).reg r = s.reg r := rfl

/-! ### startRun -/

@[simp] theorem State.startRun_regs (s : State) : (s.startRun).regs = s.regs := rfl
@[simp] theorem State.startRun_pc (s : State) : (s.startRun).pc = Config.startPc := rfl
@[simp] theorem State.startRun_cond (s : State) : (s.startRun).cond = s.cond := rfl
@[simp] theorem State.startRun_mem (s : State) : (s.startRun).mem = s.mem := rfl
@[simp] theorem State.startRun_running (s : State) : (s.startRun).running = true := rfl
@[simp] theorem State.startRun_stopReason (s : State) : (s.startRun).stopReason = s.stopReason := rfl
@[simp] theorem State.startRun_console (s : State) : (s.startRun).console = s.console := rfl
@[simp] theorem State.startRun_reg (s : State) (r : Reg) : (s.startRun).reg r = s.reg r := rfl

/-! ### drawPolls and dropPolls -/

@[simp] theorem State.drawPolls_regs (s : State) (k : Nat) : (s.drawPolls k).regs = s.regs := rfl
@[simp] theorem State.drawPolls_pc (s : State) (k : Nat) : (s.drawPolls k).pc = s.pc := rfl
@[simp] theorem State.drawPolls_cond (s : State) (k : Nat) : (s.drawPolls k).cond = s.cond := rfl
@[simp] theorem State.drawPolls_mem (s : State) (k : Nat) : (s.drawPolls k).mem = s.mem := rfl
@[simp] theorem State.drawPolls_running (s : State) (k : Nat) : (s.drawPolls k).running = s.running := rfl
@[simp] theorem State.drawPolls_stopReason (s : State) (k : Nat) : (s.drawPolls k).stopReason = s.stopReason := rfl
@[simp] theorem State.dropPolls_regs (s : State) : (s.dropPolls).regs = s.regs := rfl
@[simp] theorem State.dropPolls_pc (s : State) : (s.dropPolls).pc = s.pc := rfl
@[simp] theorem State.dropPolls_cond (s : State) : (s.dropPolls).cond = s.cond := rfl
@[simp] theorem State.dropPolls_mem (s : State) : (s.dropPolls).mem = s.mem := rfl
@[simp] theorem State.dropPolls_running (s : State) : (s.dropPolls).running = s.running := rfl
@[simp] theorem State.dropPolls_stopReason (s : State) : (s.dropPolls).stopReason = s.stopReason := rfl
@[simp] theorem State.drawPolls_console (s : State) (k : Nat) : (s.drawPolls k).console =
    { s.console with polls := List.replicate k true ++ [false], draws := s.console.draws + 1 } := rfl
@[simp] theorem State.dropPolls_console (s : State) : s.dropPolls.console = { s.console with polls := [] } := rfl
@[simp] theorem State.drawPolls_reg (s : State) (k : Nat) (r : Reg) : (s.drawPolls k).reg r = s.reg r := rfl
@[simp] theorem State.dropPolls_reg (s : State) (r : Reg) : s.dropPolls.reg r = s.reg r := rfl

/-! ### prependOutput -/

@[simp] theorem State.prependOutput_regs (s : State) (o : List Byte) : (s.prependOutput o).regs = s.regs := rfl
@[simp] theorem State.prependOutput_pc (s : State) (o : List Byte) : (s.prependOutput o).pc = s.pc := rfl
@[simp] theorem State.prependOutput_cond (s : State) (o : List Byte) : (s.prependOutput o).cond = s.cond := rfl
@[simp] theorem State.prependOutput_mem (s : State) (o : List Byte) : (s.prependOutput o).mem = s.mem := rfl
@[simp] theorem State.prependOutput_running (s : State) (o : List Byte) : (s.prependOutput o).running = s.running := rfl
@[simp] theorem State.prependOutput_stopReason (s : State) (o : List Byte) : (s.prependOutput o).stopReason = s.stopReason := rfl
@[simp] theorem State.prependOutput_console (s : State) (o : List Byte) : (s.prependOutput o).console = { s.console with output := o ++ s.console.output } := rfl
@[simp] theorem State.prependOutput_reg (s : State) (o : List Byte) (r : Reg) : (s.prependOutput o).reg r = s.reg r := rfl

end Sys2Proof.Machine
end

