-- ==== Sys2Proof/Laws/Memory.lean ====
section
/-! SUPPORT. The laws of Memory: reading after writing, and that every memory operation keeps the canonical form. -/

namespace Sys2Proof.Machine

theorem readByte_writeByte_same (m : List Host.Cell) (a : Nat) (v : Byte) (h : m.Pairwise (fun x y => x.1 < y.1)) :
    readByte (writeByte m a v) a = v := by
  induction m with
  | nil => by_cases hv : v = 0x00#8 <;> simp [writeByte, readByte, hv]
  | cons c rest ih =>
    obtain ⟨k, b⟩ := c
    rw [List.pairwise_cons] at h
    have absent : ∀ l : List Host.Cell, (∀ c ∈ l, a < c.1) → readByte l a = 0x00#8 := by
      intro l
      induction l with
      | nil => intro _; rfl
      | cons d l ihl =>
        intro hl
        have h1 : a < d.1 := hl d (by simp)
        have h2 := ihl fun c hc => hl c (by simp [hc])
        simp [readByte, Nat.ne_of_lt h1, h2]
    unfold writeByte
    split
    · rename_i lt
      split
      · rename_i hv
        subst hv
        exact absent _ (by
          intro c hc
          rcases List.mem_cons.1 hc with rfl | hc
          · exact lt
          · exact Nat.lt_trans lt (h.1 c hc))
      · simp [readByte]
    · split
      · rename_i eq
        subst eq
        split
        · rename_i hv
          subst hv
          exact absent _ h.1
        · simp [readByte]
      · rename_i ne
        simp [readByte, ne, ih h.2]

theorem readByte_writeByte_other (m : List Host.Cell) {a b : Nat} (v : Byte) (h : b ≠ a) :
    readByte (writeByte m a v) b = readByte m b := by
  induction m with
  | nil => by_cases hv : v = 0x00#8 <;> simp [writeByte, readByte, hv, h]
  | cons c rest ih =>
    obtain ⟨k, x⟩ := c
    unfold writeByte
    split
    · split <;> simp [readByte, h]
    · split
      · rename_i eq
        subst eq
        split <;> simp [readByte, h]
      · simp [readByte, ih]

theorem mem_writeByte {m : List Host.Cell} {a : Nat} {v : Byte} {c : Host.Cell} (h : c ∈ writeByte m a v) :
    c ∈ m ∨ (c = (a, v) ∧ v ≠ 0x00#8) := by
  induction m with
  | nil =>
    by_cases hv : v = 0x00#8
    · simp [writeByte, hv] at h
    · simp only [writeByte, if_neg hv, List.mem_singleton] at h
      exact .inr ⟨h, hv⟩
  | cons d rest ih =>
    obtain ⟨k, x⟩ := d
    unfold writeByte at h
    split at h
    · split at h
      · exact .inl h
      · rename_i hv
        rcases List.mem_cons.1 h with rfl | h
        · exact .inr ⟨rfl, hv⟩
        · exact .inl h
    · split at h
      · split at h
        · exact .inl (List.mem_cons_of_mem _ h)
        · rename_i hv
          rcases List.mem_cons.1 h with rfl | h
          · exact .inr ⟨rfl, hv⟩
          · exact .inl (List.mem_cons_of_mem _ h)
      · rcases List.mem_cons.1 h with rfl | h
        · exact .inl (by simp)
        · exact (ih h).imp (List.mem_cons_of_mem _) id

theorem writeByte_sorted {m : List Host.Cell} (a : Nat) (v : Byte) (h : m.Pairwise (fun x y => x.1 < y.1)) :
    (writeByte m a v).Pairwise (fun x y => x.1 < y.1) := by
  induction m with
  | nil => by_cases hv : v = 0x00#8 <;> simp [writeByte, hv]
  | cons d rest ih =>
    obtain ⟨k, x⟩ := d
    have h' := List.pairwise_cons.1 h
    unfold writeByte
    split
    · rename_i lt
      split
      · exact h
      · refine List.pairwise_cons.2 ⟨?_, h⟩
        intro c hc
        rcases List.mem_cons.1 hc with rfl | hc
        · exact lt
        · exact Nat.lt_trans lt (h'.1 c hc)
    · rename_i nlt
      split
      · rename_i eq
        subst eq
        split
        · exact h'.2
        · exact List.pairwise_cons.2 ⟨h'.1, h'.2⟩
      · rename_i ne
        refine List.pairwise_cons.2 ⟨?_, ih h'.2⟩
        intro c hc
        rcases mem_writeByte hc with hc | ⟨rfl, _⟩
        · exact h'.1 c hc
        · exact Nat.lt_of_le_of_ne (Nat.le_of_not_lt nlt) (Ne.symm ne)

theorem writeByte_wf {m : List Host.Cell} {a : Nat} (v : Byte) (h : Memory.wf m) (ha : a < 131072) :
    Memory.wf (writeByte m a v) := by
  refine ⟨writeByte_sorted a v h.1, ?_⟩
  intro c hc
  rcases mem_writeByte hc with hc | ⟨rfl, hv⟩
  · exact h.2 c hc
  · exact ⟨ha, hv⟩

/-- The two bytes of a Word put back together. -/
theorem word_of_bytes (v : Word) : v.extractLsb' 8 8 ++ v.extractLsb' 0 8 = (v : BitVec (8 + 8)) := by
  apply BitVec.eq_of_getLsbD_eq
  intro i hi
  rw [BitVec.getLsbD_append]
  by_cases h : i < 8
  · simp [h]
  · have h' : i - 8 < 8 := by omega
    simp [h, h', show 8 + (i - 8) = i by omega]

theorem readWord_writeWord_same {m : List Host.Cell} (a v : Word) (h : Memory.wf m) :
    readWord (writeWord m a v) a = v := by
  unfold readWord writeWord
  rw [readByte_writeByte_same _ _ _ (writeByte_sorted _ _ h.1),
    readByte_writeByte_other _ _ (by omega), readByte_writeByte_same _ _ _ h.1]
  exact word_of_bytes v

theorem readWord_writeWord_other (m : List Host.Cell) {a b : Word} (v : Word) (h : b ≠ a) :
    readWord (writeWord m a v) b = readWord m b := by
  have h' : b.toNat ≠ a.toNat := fun e => h (BitVec.eq_of_toNat_eq e)
  unfold readWord writeWord
  rw [readByte_writeByte_other _ _ (by omega), readByte_writeByte_other _ _ (by omega),
    readByte_writeByte_other _ _ (by omega), readByte_writeByte_other _ _ (by omega)]

theorem writeWord_wf {m : List Host.Cell} (a v : Word) (h : Memory.wf m) : Memory.wf (writeWord m a v) := by
  have := a.isLt
  exact writeByte_wf _ (writeByte_wf _ h (by omega)) (by omega)

@[simp] theorem readWord_nil (a : Word) : readWord [] a = 0x0000#16 := by
  show (0x00#8 ++ 0x00#8 : BitVec (8 + 8)) = 0x0000#16
  decide

theorem reset_memory_wf : Memory.wf State.reset.mem := by decide

/-- A byte that no entry is smaller than or equal to reads as unlisted. -/
theorem readByte_absent {m : List Host.Cell} {a : Nat} (h : ∀ c ∈ m, a < c.1) : readByte m a = 0x00#8 := by
  induction m with
  | nil => rfl
  | cons d l ih =>
    have h1 : a < d.1 := h d (by simp)
    have h2 := ih fun c hc => h c (by simp [hc])
    simp [readByte, Nat.ne_of_lt h1, h2]

/-- Canonical lists whose bytes all read alike are one list: equal memories are equal data. -/
theorem cells_ext {m n : List Host.Cell} (hm : m.Pairwise (fun x y => x.1 < y.1)) (hm0 : ∀ c ∈ m, c.2 ≠ 0x00#8)
    (hn : n.Pairwise (fun x y => x.1 < y.1)) (hn0 : ∀ c ∈ n, c.2 ≠ 0x00#8)
    (h : ∀ a, readByte m a = readByte n a) : m = n := by
  induction m generalizing n with
  | nil =>
    cases n with
    | nil => rfl
    | cons d n =>
      have := h d.1
      simp only [readByte, if_true] at this
      exact absurd this.symm (hn0 d (by simp))
  | cons c m ih =>
    have hc := List.pairwise_cons.1 hm
    cases n with
    | nil =>
      have := h c.1
      simp only [readByte, if_true] at this
      exact absurd this (hm0 c (by simp))
    | cons d n =>
      have hd := List.pairwise_cons.1 hn
      obtain ⟨k, b⟩ := c
      obtain ⟨l, e⟩ := d
      have hk : k = l := by
        rcases Nat.lt_trichotomy k l with lt | eq | gt
        · have e1 := h k
          rw [readByte_absent (m := (l, e) :: n) (by
            intro c hc
            rcases List.mem_cons.1 hc with rfl | hc
            · exact lt
            · exact Nat.lt_trans lt (hd.1 c hc))] at e1
          simp only [readByte, if_true] at e1
          exact absurd e1 (hm0 (k, b) (by simp))
        · exact eq
        · have e1 := h l
          rw [readByte_absent (m := (k, b) :: m) (by
            intro c hc'
            rcases List.mem_cons.1 hc' with rfl | hc'
            · exact gt
            · exact Nat.lt_trans gt (hc.1 c hc'))] at e1
          simp only [readByte, if_true] at e1
          exact absurd e1.symm (hn0 (l, e) (by simp))
      subst hk
      have hb : b = e := by
        have e1 := h k
        simpa [readByte] using e1
      subst hb
      congr 1
      refine ih hc.2 (fun c h => hm0 c (by simp [h])) hd.2 (fun c h => hn0 c (by simp [h])) fun a => ?_
      by_cases ha : a = k
      · subst ha
        rw [readByte_absent hc.1, readByte_absent hd.1]
      · have e1 := h a
        simpa [readByte, ha] using e1

/-- A Word determines its two bytes. -/
theorem append_inj {a b c d : Byte} (h : a ++ b = (c ++ d : BitVec (8 + 8))) : a = c ∧ b = d := by
  have bit : ∀ i, (a ++ b).getLsbD i = (c ++ d).getLsbD i := fun i => by rw [h]
  simp only [BitVec.getLsbD_append] at bit
  refine ⟨BitVec.eq_of_getLsbD_eq fun i _ => ?_, BitVec.eq_of_getLsbD_eq fun i hi => ?_⟩
  · simpa using bit (i + 8)
  · simpa [hi] using bit i

/-- Two canonical memories that read alike at every Word address are equal. -/
theorem memory_ext {m n : List Host.Cell} (hm : Memory.wf m) (hn : Memory.wf n)
    (h : ∀ a, readWord m a = readWord n a) : m = n := by
  have bytes : ∀ {x y : List Host.Cell} (a : Word), readWord x a = readWord y a →
      readByte x (2 * a.toNat + 1) = readByte y (2 * a.toNat + 1) ∧
        readByte x (2 * a.toNat) = readByte y (2 * a.toNat) := by
    intro x y a e
    exact append_inj e
  refine cells_ext hm.1 (fun c hc => (hm.2 c hc).2) hn.1 (fun c hc => (hn.2 c hc).2) fun a => ?_
  by_cases ha : a < 131072
  · have e := bytes (BitVec.ofNat 16 (a / 2)) (h _)
    have ht : (BitVec.ofNat 16 (a / 2)).toNat = a / 2 := by
      rw [BitVec.toNat_ofNat]
      omega
    rw [ht] at e
    rcases Nat.mod_two_eq_zero_or_one a with h2 | h2
    · rw [show a = 2 * (a / 2) by omega]
      exact e.2
    · rw [show a = 2 * (a / 2) + 1 by omega]
      exact e.1
  · have out : ∀ x : List Host.Cell, (∀ c ∈ x, c.1 < 131072) → readByte x a = 0x00#8 := by
      intro x
      induction x with
      | nil => intro _; rfl
      | cons d l ih =>
        intro hx
        have h1 : d.1 < 131072 := hx d (by simp)
        have h2 := ih fun c hc => hx c (by simp [hc])
        have h3 : a ≠ d.1 := by omega
        simp [readByte, h3, h2]
    rw [out m fun c hc => (hm.2 c hc).1, out n fun c hc => (hn.2 c hc).1]

end Sys2Proof.Machine
end

