-- ==== Sys2Proof/Laws/Ops.lean ====
section
/-! SUPPORT. One lemma per shared operation that says what it can do: flags, the console port, the keyboard poll, a
read of Memory, and the string loop of PUTS and PUTSP. -/

namespace Sys2Proof.Machine

/-! ### Flags and sign extension -/

theorem condOf_eq_flagOf (v : Word) : condOf v = flagOf v := by
  have hz : (v = 0x0000#16) ↔ v.toNat = 0 := ⟨fun h => by rw [h]; rfl, fun h => BitVec.eq_of_toNat_eq h⟩
  have hn : v.getLsbD 15 = true ↔ v.toNat ≥ 32768 := by
    have := BitVec.msb_eq_decide v
    rw [BitVec.msb_eq_getLsbD_last] at this
    simp only [Nat.reduceSub, Nat.reducePow] at this
    rw [this]
    simp
  unfold condOf flagOf
  simp only [hz, hn]

theorem flagOf_oneFlag (v : Word) : flagOf v = Config.condP ∨ flagOf v = Config.condZ ∨ flagOf v = Config.condN := by
  unfold flagOf
  split
  · exact .inr (.inl rfl)
  · split
    · exact .inr (.inr rfl)
    · exact .inl rfl

/-! ### Console port -/

@[simp] theorem Console.avail_output (c : Console) : c.avail.2.output = c.output := by
  unfold Console.avail
  split <;> rfl

@[simp] theorem Console.avail_ended (c : Console) : c.avail.2.ended = c.ended := by
  unfold Console.avail
  split <;> rfl

@[simp] theorem Console.avail_input (c : Console) : c.avail.2.input = c.input := by
  unfold Console.avail
  split <;> rfl

theorem Console.read_output {c c' : Console} {b : Byte} (h : c.read = some (b, c')) : c'.output = c.output := by
  unfold Console.read at h
  split at h
  · cases h
    rfl
  · split at h
    · cases h
    · cases h
      rfl

/-- ConsoleRead answers none exactly when input has ended (92 D15). -/
theorem Console.read_eq_none (c : Console) : c.read = none ↔ c.canRead = false := by
  unfold Console.read Console.canRead
  cases c.input <;> cases c.ended <;> simp

/-- A ConsoleRead after a ConsoleAvail that answered true does not block. -/
theorem Console.avail_true_read {c c' : Console} (h : c.avail = (true, c')) : ∃ b c'', c'.read = some (b, c'') := by
  have hr : c.canRead = true := by
    unfold Console.avail at h
    split at h
    all_goals
      rw [Prod.mk.injEq, Bool.and_eq_true] at h
      exact h.1.1
  have hc : c'.canRead = c.canRead := by
    have e : c' = c.avail.2 := by rw [h]
    subst e
    simp [Console.canRead]
  cases hread : c'.read with
  | none => simp [(Console.read_eq_none c').1 hread, hr] at hc
  | some p => exact ⟨p.1, p.2, rfl⟩

@[simp] theorem Console.poll_output (c : Console) : c.poll.2.output = c.output := by
  unfold Console.poll
  have ho := Console.avail_output c
  split
  · rename_i h
    rw [h] at ho
    exact ho
  · rename_i c' h
    rw [h] at ho
    split
    · rename_i hr
      exact (Console.read_output hr).trans ho
    · exact ho

/-- A poll whose scripted answer is "yes", with a character to read, takes that character. -/
theorem Console.poll_yes {c : Console} {ps : List Bool} {b : Byte} {cs : List Byte} (hp : c.polls = true :: ps)
    (hi : c.input = b :: cs) : c.poll = (some b, { c with polls := ps, input := cs }) := by
  simp [Console.poll, Console.avail, Console.canRead, Console.read, hp, hi]

/-- A poll whose scripted answer is "no" takes nothing. -/
theorem Console.poll_no {c : Console} {ps : List Bool} (hp : c.polls = false :: ps) :
    c.poll = (none, { c with polls := ps }) := by
  simp [Console.poll, Console.avail, hp]

/-- A poll after the end of input takes nothing (92 D15). -/
theorem Console.poll_ended {c : Console} (hi : c.input = []) (he : c.ended = true) : c.poll.1 = none := by
  unfold Console.poll Console.avail Console.canRead
  cases c.polls <;> simp [hi, he]

theorem State.consoleWriteAll_eq_foldl (s : State) (msg : List Byte) :
    s.consoleWriteAll msg = msg.foldl State.consoleWrite s := by
  induction msg generalizing s with
  | nil => simp [State.consoleWriteAll]
  | cons b bs ih =>
    rw [List.foldl_cons, ← ih]
    simp [State.consoleWriteAll, State.consoleWrite, Console.write]

/-! ### The keyboard poll and MemRead -/

/-- All a poll can do (20 R62). -/
theorem State.pollKeyboard_cases (s : State) :
    (∃ c con, s.console.poll = (some c, con) ∧ s.pollKeyboard =
      { s with mem := writeWord (writeWord s.mem Config.kbsrAddr Config.kbReady) Config.kbdrAddr (c.setWidth 16), console := con }) ∨
    (∃ con, s.console.poll = (none, con) ∧
      s.pollKeyboard = { s with mem := writeWord s.mem Config.kbsrAddr 0x0000#16, console := con }) := by
  unfold State.pollKeyboard
  split
  · rename_i c con h
    exact .inl ⟨c, con, h, rfl⟩
  · rename_i con h
    exact .inr ⟨con, h, rfl⟩

theorem State.afterRead_kbsr (s : State) : s.afterRead Config.kbsrAddr = s.pollKeyboard := if_pos rfl

theorem State.afterRead_other (s : State) {a : Word} (h : a ≠ Config.kbsrAddr) : s.afterRead a = s := if_neg h

@[simp] theorem State.memRead_snd (s : State) (a : Word) : (s.memRead a).2 = s.afterRead a := rfl

theorem State.memRead_other (s : State) {a : Word} (h : a ≠ Config.kbsrAddr) : s.memRead a = (readWord s.mem a, s) := by
  unfold State.memRead
  rw [State.afterRead_other s h]

/-- What a read leaves alone (20 R62): everything but the two keyboard words and the console's input side. -/
theorem State.afterRead_frame (s : State) (a : Word) :
    (s.afterRead a).regs = s.regs ∧ (s.afterRead a).pc = s.pc ∧ (s.afterRead a).cond = s.cond ∧
    (s.afterRead a).running = s.running ∧ (s.afterRead a).stopReason = s.stopReason ∧
    (s.afterRead a).console.output = s.console.output ∧
    ∀ b, b ≠ Config.kbsrAddr → b ≠ Config.kbdrAddr → readWord (s.afterRead a).mem b = readWord s.mem b := by
  by_cases h : a = Config.kbsrAddr
  · subst h
    rw [State.afterRead_kbsr]
    have ho := Console.poll_output s.console
    rcases s.pollKeyboard_cases with ⟨c, con, hp, e⟩ | ⟨con, hp, e⟩ <;> rw [hp] at ho <;> rw [e]
    · refine ⟨rfl, rfl, rfl, rfl, rfl, ho, fun b h0 h2 => ?_⟩
      show readWord (writeWord _ _ _) b = _
      rw [readWord_writeWord_other _ _ h2, readWord_writeWord_other _ _ h0]
    · refine ⟨rfl, rfl, rfl, rfl, rfl, ho, fun b h0 _ => ?_⟩
      exact readWord_writeWord_other _ _ h0
  · rw [State.afterRead_other s h]
    exact ⟨rfl, rfl, rfl, rfl, rfl, rfl, fun _ _ _ => rfl⟩

@[simp] theorem State.afterRead_regs (s : State) (a : Word) : (s.afterRead a).regs = s.regs :=
  (s.afterRead_frame a).1
@[simp] theorem State.afterRead_pc (s : State) (a : Word) : (s.afterRead a).pc = s.pc := (s.afterRead_frame a).2.1
@[simp] theorem State.afterRead_cond (s : State) (a : Word) : (s.afterRead a).cond = s.cond :=
  (s.afterRead_frame a).2.2.1
@[simp] theorem State.afterRead_running (s : State) (a : Word) : (s.afterRead a).running = s.running :=
  (s.afterRead_frame a).2.2.2.1
@[simp] theorem State.afterRead_stopReason (s : State) (a : Word) : (s.afterRead a).stopReason = s.stopReason :=
  (s.afterRead_frame a).2.2.2.2.1
@[simp] theorem State.afterRead_output (s : State) (a : Word) :
    (s.afterRead a).console.output = s.console.output := (s.afterRead_frame a).2.2.2.2.2.1
@[simp] theorem State.afterRead_reg (s : State) (a : Word) (r : Reg) : (s.afterRead a).reg r = s.reg r := by
  unfold State.reg
  rw [State.afterRead_regs]

theorem State.afterRead_wf {s : State} (a : Word) (h : Memory.wf s.mem) : Memory.wf (s.afterRead a).mem := by
  by_cases ha : a = Config.kbsrAddr
  · subst ha
    rw [State.afterRead_kbsr]
    rcases s.pollKeyboard_cases with ⟨c, con, _, e⟩ | ⟨con, _, e⟩ <;> rw [e]
    · exact writeWord_wf _ _ (writeWord_wf _ _ h)
    · exact writeWord_wf _ _ h
  · rw [State.afterRead_other s ha]
    exact h

/-! ### The string loop -/

/-- A string that starts and ends outside KBSR_ADDR is shorter than Memory. -/
theorem StringAt.cells {m : List Host.Cell} {a : Word} {ws : List Word} (h : StringAt m a ws) :
    (∀ k, k < ws.length → readWord m (a + BitVec.ofNat 16 k) ≠ 0x0000#16) ∧
      readWord m (a + BitVec.ofNat 16 ws.length) = 0x0000#16 := by
  induction ws generalizing a with
  | nil =>
    refine ⟨fun k hk => absurd hk (by simp), ?_⟩
    have e : a + BitVec.ofNat 16 ([] : List Word).length = a := by simp
    rw [e]
    exact h.2
  | cons w ws ih =>
    obtain ⟨hne, hw, hz, hrest⟩ := h
    have shift : ∀ k, a + BitVec.ofNat 16 (k + 1) = a + 1 + BitVec.ofNat 16 k := by
      intro k
      apply BitVec.eq_of_toNat_eq
      simp [BitVec.toNat_add]
      omega
    obtain ⟨h1, h2⟩ := ih hrest
    refine ⟨fun k hk => ?_, ?_⟩
    · cases k with
      | zero =>
        have e : a + BitVec.ofNat 16 0 = a := by simp
        rw [e, hw]
        exact hz
      | succ k =>
        rw [shift]
        exact h1 k (by simpa using hk)
    · rw [List.length_cons, shift]
      exact h2

theorem StringAt.length_lt {m : List Host.Cell} {a : Word} {ws : List Word} (h : StringAt m a ws) :
    ws.length < 65536 := by
  obtain ⟨h1, h2⟩ := h.cells
  by_contra hlt
  have e : BitVec.ofNat 16 ws.length = BitVec.ofNat 16 (ws.length - 65536) := by
    apply BitVec.eq_of_toNat_eq
    simp
    omega
  rw [e] at h2
  exact h1 (ws.length - 65536) (by omega) h2

/-- The loop over a string writes each cell's characters and changes nothing else (45 R234, R236). -/
theorem stringLoop_string (cell : Word → List Byte) (done : State → Host.Outcome State Fault Refusal)
    (more : Word → State → Host.Outcome State Fault Refusal) {n : Nat} {a : Word} {s : State} {ws : List Word}
    (h : StringAt s.mem a ws) (hn : ws.length < n) :
    stringLoop cell done more n a s = done (s.consoleWriteAll (ws.flatMap cell)) := by
  induction ws generalizing n a s with
  | nil =>
    obtain ⟨m, rfl⟩ : ∃ m, n = m + 1 := ⟨n - 1, by simp at hn; omega⟩
    unfold stringLoop
    rw [State.memRead_other s h.1, if_pos h.2]
    simp [State.consoleWriteAll]
  | cons w ws ih =>
    obtain ⟨m, rfl⟩ : ∃ m, n = m + 1 := ⟨n - 1, by simp at hn; omega⟩
    obtain ⟨hne, hw, hz, hrest⟩ := h
    unfold stringLoop
    rw [State.memRead_other s hne, if_neg (by rw [hw]; exact hz), hw]
    rw [ih (s := s.consoleWriteAll (cell w)) hrest (by simpa using hn)]
    simp [State.consoleWriteAll]

theorem le_stringFuel (s : State) : 131072 ≤ stringFuel s := by
  unfold stringFuel
  omega

/-! What the cells of a string change: PrintsCells, and what follows from it. -/

theorem PrintsCells.refl (s : State) : PrintsCells s s :=
  ⟨rfl, rfl, rfl, ⟨rfl, rfl⟩, fun _ _ _ => rfl, ⟨[], (List.append_nil _).symm⟩, id⟩

theorem PrintsCells.trans {s t u : State} (h : PrintsCells s t) (g : PrintsCells t u) : PrintsCells s u := by
  obtain ⟨h1, h2, h3, ⟨h4, h5⟩, h6, ⟨o, h7⟩, h8⟩ := h
  obtain ⟨g1, g2, g3, ⟨g4, g5⟩, g6, ⟨p, g7⟩, g8⟩ := g
  exact ⟨g1.trans h1, g2.trans h2, g3.trans h3, ⟨g4.trans h4, g5.trans h5⟩,
    fun b h0 h9 => (g6 b h0 h9).trans (h6 b h0 h9), ⟨o ++ p, by rw [g7, h7, List.append_assoc]⟩, fun h => g8 (h8 h)⟩

theorem afterRead_printsCells (s : State) (a : Word) : PrintsCells s (s.afterRead a) := by
  obtain ⟨h1, h2, h3, h4, h5, h6, h7⟩ := s.afterRead_frame a
  exact ⟨h1, h2, h3, ⟨h4, h5⟩, h7, ⟨[], by rw [h6, List.append_nil]⟩, State.afterRead_wf a⟩

theorem consoleWriteAll_printsCells (s : State) (msg : List Byte) : PrintsCells s (s.consoleWriteAll msg) :=
  ⟨rfl, rfl, rfl, ⟨rfl, rfl⟩, fun _ _ _ => rfl, ⟨msg, rfl⟩, id⟩

theorem drawPolls_printsCells (s : State) (k : Nat) : PrintsCells s (s.drawPolls k) :=
  ⟨rfl, rfl, rfl, ⟨rfl, rfl⟩, fun _ _ _ => rfl, ⟨[], (List.append_nil _).symm⟩, id⟩

theorem dropPolls_printsCells (s : State) : PrintsCells s s.dropPolls :=
  ⟨rfl, rfl, rfl, ⟨rfl, rfl⟩, fun _ _ _ => rfl, ⟨[], (List.append_nil _).symm⟩, id⟩

/-- All a run of cells can do: print, whether the string ends there or goes on. -/
theorem stringLoop_cases (cell : Word → List Byte) (done : State → Host.Outcome State Fault Refusal)
    (more : Word → State → Host.Outcome State Fault Refusal) (n : Nat) (a : Word) (s : State) :
    (∃ t, stringLoop cell done more n a s = done t ∧ PrintsCells s t) ∨
    ∃ b t, stringLoop cell done more n a s = more b t ∧ PrintsCells s t := by
  induction n generalizing a s with
  | zero => exact .inr ⟨a, s, rfl, PrintsCells.refl s⟩
  | succ n ih =>
    unfold stringLoop
    split
    · exact .inl ⟨_, rfl, afterRead_printsCells s a⟩
    · have step := (afterRead_printsCells s a).trans (consoleWriteAll_printsCells _ (cell (s.memRead a).1))
      rcases ih (a + 1) _ with ⟨t, e, h⟩ | ⟨b, t, e, h⟩
      · exact .inl ⟨t, e, step.trans h⟩
      · exact .inr ⟨b, t, e, step.trans h⟩

/-- All the rest of a string can do: run for ever, or print. -/
theorem stringRest_cases (cell : Word → List Byte) (a : Word) (s : State) :
    stringRest cell a s = .fault .stringUnending ∨ ∃ t, stringRest cell a s = .next t ∧ PrintsCells s t := by
  unfold stringRest
  split
  · exact .inl rfl
  · rename_i k _
    rcases stringLoop_cases cell (fun t => .next t.dropPolls) (fun _ _ => stringForever) (65536 * (k + 1)) a
      (s.drawPolls k) with ⟨u, f, g⟩ | ⟨c, u, f, g⟩
    · exact .inr ⟨_, f, (drawPolls_printsCells s k).trans (g.trans (dropPolls_printsCells u))⟩
    · exact .inl f

/-- All PUTS and PUTSP can do after trap entry: fault with `stringUnending`, or print. -/
theorem routineString_cases (cell : Word → List Byte) (s : State) :
    routineString cell s = .fault .stringUnending ∨ ∃ t, routineString cell s = .next t ∧ PrintsCells s t := by
  rcases stringLoop_cases cell .next (stringRest cell) (stringFuel s) (s.reg .r0) s with ⟨t, e, h⟩ | ⟨b, t, e, h⟩
  · exact .inr ⟨t, e, h⟩
  · rcases stringRest_cases cell b t with f | ⟨u, f, g⟩
    · exact .inl (e.trans f)
    · exact .inr ⟨u, e.trans f, h.trans g⟩

/-! One turn of Memory polls once, so the answers of the polls say when a string ends (log 11). -/

/-- Some of the next `n` polls takes no character, or the character 0: these are the polls that end a string. -/
def Console.endsIn : Nat → Console → Prop
  | 0, _ => False
  | n + 1, c => c.poll.1.getD 0x00#8 = 0x00#8 ∨ c.poll.2.endsIn n

/-- Output plays no part in a poll. -/
theorem Console.poll_withOutput (c : Console) (o : List Byte) :
    ({ c with output := o } : Console).poll = (c.poll.1, { c.poll.2 with output := o }) := by
  obtain ⟨polls, input, ended, draws, output⟩ := c
  cases polls with
  | cons p ps => cases p <;> cases input <;> cases ended <;> rfl
  | nil =>
    cases input <;> cases ended <;> simp [Console.poll, Console.avail, Console.canRead, Console.read] <;>
      cases Config.consoleAvail draws <;> rfl

theorem Console.endsIn_withOutput {n : Nat} {c : Console} (o : List Byte) (h : c.endsIn n) :
    ({ c with output := o } : Console).endsIn n := by
  induction n generalizing c with
  | zero => exact h
  | succ n ih =>
    unfold Console.endsIn at h ⊢
    rw [Console.poll_withOutput]
    exact h.imp id ih

/-- A script that holds a no is answered no. -/
theorem Console.endsIn_of_script {c : Console} (h : false ∈ c.polls) : c.endsIn c.polls.length := by
  generalize hp : c.polls = ps at h
  induction ps generalizing c with
  | nil => cases h
  | cons p ps ih =>
    have e : c.avail = (c.canRead && p, { c with polls := ps }) := by unfold Console.avail; rw [hp]
    show c.poll.1.getD 0x00#8 = 0x00#8 ∨ c.poll.2.endsIn ps.length
    unfold Console.poll
    rw [e]
    cases hb : c.canRead && p with
    | false => exact .inl rfl
    | true =>
      have hpt : p = true := ((Bool.and_eq_true _ _).mp hb).2
      obtain hf | hf := List.mem_cons.mp h
      · simp [hpt] at hf
      · cases hr : ({ c with polls := ps } : Console).read with
        | none => exact .inl (by simp [hr])
        | some x =>
          refine .inr ?_
          simp only [hr]
          refine ih ?_ hf
          unfold Console.read at hr
          split at hr
          · cases hr; rfl
          · split at hr
            · cases hr
            · cases hr; rfl

/-- Once the characters of an ended input are used up, every poll is answered no. -/
theorem Console.endsIn_of_ended {c : Console} (h : c.ended = true) : c.endsIn (c.input.length + 1) := by
  generalize hi : c.input = cs
  induction cs generalizing c with
  | nil => exact .inl (by rw [Console.poll_ended hi h]; rfl)
  | cons b cs ih =>
    obtain ⟨polls, input, ended, draws, output⟩ := c
    simp only at h hi
    subst h hi
    show _ ∨ _
    cases polls with
    | cons p ps =>
      cases p
      · exact .inl rfl
      · exact .inr (ih rfl rfl)
    | nil =>
      cases hd : Config.consoleAvail draws
      · exact .inl (by simp [Console.poll, Console.avail, hd])
      · refine .inr ?_
        simp only [Console.poll, Console.avail, Console.canRead, Console.read, hd]
        exact ih rfl rfl

/-- A script that holds the character 0 supplies it, or says no before. -/
theorem Console.endsIn_of_zero {c : Console} (h : 0x00#8 ∈ c.input) : c.endsIn c.input.length := by
  generalize hi : c.input = cs at h
  induction cs generalizing c with
  | nil => cases h
  | cons b cs ih =>
    obtain ⟨polls, input, ended, draws, output⟩ := c
    simp only at hi
    subst hi
    show _ ∨ _
    obtain rfl | hz := List.mem_cons.mp h
    · refine .inl ?_
      cases polls with
      | cons p ps => cases p <;> rfl
      | nil => cases hd : Config.consoleAvail draws <;> simp [Console.poll, Console.avail, Console.canRead, Console.read, hd]
    · cases polls with
      | cons p ps =>
        cases p
        · exact .inl rfl
        · exact .inr (ih rfl hz)
      | nil =>
        cases hd : Config.consoleAvail draws
        · exact .inl (by simp [Console.poll, Console.avail, hd])
        · refine .inr ?_
          simp only [Console.poll, Console.avail, Console.canRead, Console.read, hd]
          exact ih rfl hz

theorem Console.endsIn_mono {m n : Nat} {c : Console} (hmn : m ≤ n) (h : c.endsIn m) : c.endsIn n := by
  induction m generalizing n c with
  | zero => exact h.elim
  | succ m ih =>
    obtain ⟨n, rfl⟩ : ∃ k, n = k + 1 := ⟨n - 1, by omega⟩
    unfold Console.endsIn at h ⊢
    exact h.imp id (ih (by omega))

/-- A read of KBSR_ADDR whose poll takes nothing gives 0 (20 R62). -/
theorem State.memRead_kbsr_no {s : State} (hm : Memory.wf s.mem) (h : s.console.poll.1 = none) :
    (s.memRead Config.kbsrAddr).1 = 0x0000#16 := by
  unfold State.memRead
  rw [State.afterRead_kbsr]
  rcases s.pollKeyboard_cases with ⟨c, con, e, _⟩ | ⟨con, _, e⟩
  · rw [e] at h
    cases h
  · rw [e]
    exact readWord_writeWord_same _ _ hm

/-- Every cell but KBSR_ADDR's is one nearer to it than the next is. -/
theorem next_cell_nearer {a : Word} {d : Nat} (hd : (Config.kbsrAddr - a).toNat = d) (ha : a ≠ Config.kbsrAddr) :
    0 < d ∧ (Config.kbsrAddr - (a + 1)).toNat = d - 1 := by
  have hne : a.toNat ≠ Config.kbsrAddr.toNat := fun h => ha (BitVec.eq_of_toNat_eq h)
  have := a.isLt
  have e1 : (1 : Word).toNat = 1 := rfl
  simp only [BitVec.toNat_sub, BitVec.toNat_add, Config.kbsrAddr, BitVec.toNat_ofNat, e1] at hd hne ⊢
  omega

/-- A poll uses up a scripted answer, if there is one. -/
theorem Console.poll_polls (c : Console) : c.poll.2.polls = c.polls.tail := by
  obtain ⟨polls, input, ended, draws, output⟩ := c
  cases polls with
  | cons p ps => cases p <;> cases input <;> cases ended <;> rfl
  | nil =>
    cases input <;> cases ended <;> simp [Console.poll, Console.avail, Console.canRead, Console.read] <;>
      cases Config.consoleAvail draws <;> rfl

/-- A poll that takes a character takes the first scripted one, if there is one. -/
theorem Console.poll_input {c : Console} (h : c.poll.1 ≠ none) : c.poll.2.input = c.input.tail := by
  obtain ⟨polls, input, ended, draws, output⟩ := c
  cases polls with
  | cons p ps => cases p <;> cases input <;> cases ended <;> first | rfl | exact absurd rfl h
  | nil =>
    cases hd : Config.consoleAvail draws <;> cases input <;> cases ended <;>
      simp_all [Console.poll, Console.avail, Console.canRead, Console.read]

/-- A poll never takes a draw back. -/
theorem Console.poll_draws (c : Console) : c.draws ≤ c.poll.2.draws := by
  obtain ⟨polls, input, ended, draws, output⟩ := c
  cases polls with
  | cons p ps => cases p <;> cases input <;> cases ended <;> simp [Console.poll, Console.avail, Console.canRead, Console.read]
  | nil =>
    cases input <;> cases ended <;> simp [Console.poll, Console.avail, Console.canRead, Console.read] <;>
      cases Config.consoleAvail draws
    all_goals simp [Nat.add_assoc]

/-- A run of `m + n` cells is a run of `m` and then one of `n`. -/
theorem stringLoop_add (cell : Word → List Byte) (done : State → Host.Outcome State Fault Refusal)
    (more : Word → State → Host.Outcome State Fault Refusal) (m n : Nat) (a : Word) (s : State) :
    stringLoop cell done more (m + n) a s = stringLoop cell done (stringLoop cell done more n) m a s := by
  induction m generalizing a s with
  | zero => rw [Nat.zero_add]; rfl
  | succ m ih =>
    rw [Nat.succ_add]
    show (if _ then _ else _) = if _ then _ else _
    rw [ih]

/-- The `n` cells before KBSR_ADDR are read as they are: one ends the string, or none is 0 and Memory is unchanged. -/
theorem stringLoop_plain (cell : Word → List Byte) (done : State → Host.Outcome State Fault Refusal)
    (more : Word → State → Host.Outcome State Fault Refusal) {n : Nat} {a : Word} {s : State}
    (hn : (Config.kbsrAddr - a).toNat = n) :
    (∃ t, stringLoop cell done more n a s = done t) ∨
    ∃ out, stringLoop cell done more n a s = more Config.kbsrAddr (s.consoleWriteAll out) ∧
      ∀ b, (Config.kbsrAddr - b).toNat ≤ n → b ≠ Config.kbsrAddr → readWord s.mem b ≠ 0x0000#16 := by
  induction n generalizing a s with
  | zero =>
    have ha : a = Config.kbsrAddr := by
      by_contra h
      exact absurd (next_cell_nearer hn h).1 (Nat.lt_irrefl 0)
    subst ha
    refine .inr ⟨[], ?_, fun b hb hne => absurd (next_cell_nearer rfl hne).1 (by omega)⟩
    simp [stringLoop, State.consoleWriteAll]
  | succ n ih =>
    have ha : a ≠ Config.kbsrAddr := by
      rintro rfl
      simp at hn
    unfold stringLoop
    rw [State.memRead_other s ha]
    split
    · exact .inl ⟨_, rfl⟩
    · rename_i hz
      refine (ih (s := s.consoleWriteAll (cell (readWord s.mem a))) (next_cell_nearer hn ha).2).imp id ?_
      rintro ⟨out, e, h⟩
      refine ⟨cell (readWord s.mem a) ++ out, ?_, fun b hb hne => ?_⟩
      · rw [e]
        simp [State.consoleWriteAll]
      · by_cases hba : b = a
        · rw [hba]
          exact hz
        · refine h b ?_ hne
          have hd : (Config.kbsrAddr - b).toNat ≠ n + 1 := by
            intro hb'
            apply hba
            have e := hb'.trans hn.symm
            have h1 := a.isLt
            have h2 := b.isLt
            simp only [BitVec.toNat_sub, Config.kbsrAddr, BitVec.toNat_ofNat] at e
            exact BitVec.eq_of_toNat_eq (by omega)
          omega

/-- `d` cells before KBSR_ADDR, a run of cells that goes on past `n` turns has used up `n` scripted answers and `n`
characters; the draw counter never goes back. -/
theorem stringLoop_uses_script (cell : Word → List Byte) (done : State → Host.Outcome State Fault Refusal)
    (more : Word → State → Host.Outcome State Fault Refusal) {n d f : Nat} {a : Word} {s : State}
    (hm : Memory.wf s.mem) (hd : (Config.kbsrAddr - a).toNat = d) (hf : d + 1 + 65536 * n ≤ f + 65536) :
    (∃ t, stringLoop cell done more f a s = done t) ∨
    ∃ t, stringLoop cell done more f a s = more (a + BitVec.ofNat 16 f) t ∧
      t.console.polls.length ≤ s.console.polls.length - n ∧
      t.console.input.length ≤ s.console.input.length - n ∧ s.console.draws ≤ t.console.draws ∧
      Memory.wf t.mem := by
  induction f generalizing n d a s with
  | zero =>
    obtain rfl : n = 0 := by omega
    exact .inr ⟨s, by simp [stringLoop], Nat.le_refl _, Nat.le_refl _, Nat.le_refl _, hm⟩
  | succ f ih =>
    have hshift : a + BitVec.ofNat 16 (f + 1) = a + 1 + BitVec.ofNat 16 f := by
      apply BitVec.eq_of_toNat_eq
      simp [BitVec.toNat_add]
      omega
    rw [hshift]
    unfold stringLoop
    split
    · exact .inl ⟨_, rfl⟩
    · rename_i hz
      rw [State.memRead_snd]
      generalize hu : (s.afterRead a).consoleWriteAll (cell (s.memRead a).1) = u
      have hwf : Memory.wf u.mem := hu ▸ State.afterRead_wf a hm
      by_cases ha : a = Config.kbsrAddr
      · subst ha
        have hd0 : d = 0 := by rw [← hd]; simp
        have hyes : s.console.poll.1 ≠ none := fun h => hz (State.memRead_kbsr_no hm h)
        have hp : u.console.polls = s.console.polls.tail ∧ u.console.input = s.console.input.tail ∧
            s.console.draws ≤ u.console.draws := by
          rw [← hu, State.afterRead_kbsr, ← Console.poll_polls, ← Console.poll_input hyes]
          have hdraws := Console.poll_draws s.console
          rcases s.pollKeyboard_cases with ⟨c, con, e, e'⟩ | ⟨con, e, e'⟩ <;> rw [e', e] <;> rw [e] at hdraws <;>
            exact ⟨rfl, rfl, hdraws⟩
        refine (ih (n := n - 1) (d := 65535) hwf (by decide) (by omega)).imp id ?_
        rintro ⟨t, e, g, g2, g', gw⟩
        rw [hp.1, List.length_tail] at g
        rw [hp.2.1, List.length_tail] at g2
        exact ⟨t, e, by omega, by omega, hp.2.2.trans g', gw⟩
      · obtain ⟨hd1, hd'⟩ := next_cell_nearer hd ha
        rw [State.afterRead_other s ha] at hu
        subst hu
        exact ih (s := s.consoleWriteAll (cell (s.memRead a).1)) hwf hd' (by omega)

/-- All PUTS and PUTSP can do, by runs: end in the first, or come to KBSR_ADDR with every scripted answer and character
used up and every other Word read, as it now stands, and found not 0: only a poll to come can end the string. -/
theorem routineString_runs (cell : Word → List Byte) {s : State} (hm : Memory.wf s.mem) :
    (∃ t, routineString cell s = .next t) ∨
    ∃ t, routineString cell s = stringRest cell Config.kbsrAddr t ∧ t.console.polls = [] ∧ t.console.input = [] ∧
      s.console.draws ≤ t.console.draws ∧ Memory.wf t.mem ∧
      ∀ b, b ≠ Config.kbsrAddr → readWord t.mem b ≠ 0x0000#16 := by
  obtain ⟨m, hM⟩ : ∃ m, m = s.console.polls.length + s.console.input.length + 1 := ⟨_, rfl⟩
  have hfuel : stringFuel s = (65536 * m + (Config.kbsrAddr - s.reg .r0).toNat + 1) + 65535 := by
    unfold stringFuel
    omega
  unfold routineString
  rw [hfuel, stringLoop_add]
  rcases stringLoop_uses_script cell .next (stringLoop cell .next (stringRest cell) 65535) (n := m)
    (a := s.reg .r0) (f := 65536 * m + (Config.kbsrAddr - s.reg .r0).toNat + 1) hm rfl (by omega) with
    h | ⟨u, e, g1, g2, g3, gw⟩
  · exact .inl h
  · have hat : s.reg .r0 + BitVec.ofNat 16 (65536 * m + (Config.kbsrAddr - s.reg .r0).toNat + 1) =
        Config.kbsrAddr + 1 := by
      have e1 : (1 : Word).toNat = 1 := rfl
      have := (s.reg .r0).isLt
      apply BitVec.eq_of_toNat_eq
      simp only [BitVec.toNat_add, BitVec.toNat_sub, BitVec.toNat_ofNat, Config.kbsrAddr, e1]
      omega
    rw [e, hat]
    refine (stringLoop_plain cell .next (stringRest cell) (n := 65535) (by decide)).imp id ?_
    rintro ⟨out, e', h⟩
    exact ⟨_, e', List.eq_nil_of_length_eq_zero (by show u.console.polls.length = 0; omega),
      List.eq_nil_of_length_eq_zero (by show u.console.input.length = 0; omega), g3, gw,
      fun b hb => h b (by have := (Config.kbsrAddr - b).isLt; omega) hb⟩

/-- A read of KBSR_ADDR whose poll takes the character 0 leaves 0 in the keyboard data word (20 R62). -/
theorem State.afterRead_kbsr_zero {s : State} (hm : Memory.wf s.mem) (h : s.console.poll.1 = some 0x00#8) :
    readWord (s.afterRead Config.kbsrAddr).mem Config.kbdrAddr = 0x0000#16 := by
  rw [State.afterRead_kbsr]
  rcases s.pollKeyboard_cases with ⟨c, con, e, e'⟩ | ⟨con, e, _⟩
  · rw [e] at h
    cases h
    rw [e']
    exact readWord_writeWord_same _ _ (writeWord_wf _ _ hm)
  · rw [e] at h
    cases h

/-- Two cells on from KBSR_ADDR, a string ends at a keyboard data word of 0. -/
theorem stringLoop_ends_at_kbdr (cell : Word → List Byte) (done : State → Host.Outcome State Fault Refusal)
    (more : Word → State → Host.Outcome State Fault Refusal) {f : Nat} {s : State} (hf : 2 ≤ f)
    (hz : readWord s.mem Config.kbdrAddr = 0x0000#16) :
    ∃ t, stringLoop cell done more f (Config.kbsrAddr + 1) s = done t := by
  obtain ⟨f, rfl⟩ : ∃ k, f = k + 2 := ⟨f - 2, by omega⟩
  have e : Config.kbsrAddr + 1 + 1 = Config.kbdrAddr := by decide
  rw [stringLoop, State.memRead_other s (by decide), e]
  split
  · exact ⟨_, rfl⟩
  · rw [stringLoop, State.memRead_other _ (by decide)]
    exact ⟨_, if_pos hz⟩

/-- `d` cells before KBSR_ADDR a string ends, within `n` turns and two cells, if some of the next `n` polls takes
nothing or the character 0. -/
theorem stringLoop_ends (cell : Word → List Byte) (done : State → Host.Outcome State Fault Refusal)
    (more : Word → State → Host.Outcome State Fault Refusal) {n d f : Nat} {a : Word} {s : State} (hm : Memory.wf s.mem)
    (hd : (Config.kbsrAddr - a).toNat = d) (hn : s.console.endsIn n) (hf : d + 3 + 65536 * n ≤ f + 65536) :
    ∃ t, stringLoop cell done more f a s = done t := by
  induction f generalizing n d a s with
  | zero =>
    cases n with
    | zero => exact hn.elim
    | succ n => omega
  | succ f ih =>
    have hwf : ∀ msg, Memory.wf ((s.afterRead a).consoleWriteAll msg).mem := fun _ => State.afterRead_wf a hm
    unfold stringLoop
    split
    · exact ⟨_, rfl⟩
    · rename_i hw
      rw [State.memRead_snd]
      by_cases ha : a = Config.kbsrAddr
      · subst ha
        have hd0 : d = 0 := by rw [← hd]; simp
        cases n with
        | zero => exact hn.elim
        | succ n =>
          obtain hend | hmore := hn
          · cases hc : s.console.poll.1 with
            | none => exact absurd (State.memRead_kbsr_no hm hc) hw
            | some c =>
              rw [hc] at hend
              obtain rfl : c = 0x00#8 := hend
              exact stringLoop_ends_at_kbdr cell done more (by omega) (State.afterRead_kbsr_zero hm hc)
          · refine ih (n := n) (d := 65535) (hwf _) (by decide) ?_ (by omega)
            rw [State.afterRead_kbsr]
            rcases s.pollKeyboard_cases with ⟨c, con, e, e'⟩ | ⟨con, e, e'⟩ <;> rw [e'] <;> rw [e] at hmore <;>
              exact Console.endsIn_withOutput _ hmore
      · obtain ⟨hd1, hd'⟩ := next_cell_nearer hd ha
        refine ih (n := n) (d := d - 1) (hwf _) hd' ?_ ?_
        · rw [State.afterRead_other s ha]
          exact Console.endsIn_withOutput _ hn
        · omega

/-- The answers drawn for `k` turns end a string by the poll after them. -/
theorem drawn_polls_end (s : State) (k : Nat) : (s.drawPolls k).console.endsIn (k + 1) := by
  have h := Console.endsIn_of_script (c := (s.drawPolls k).console) (by simp [State.drawPolls])
  simpa [State.drawPolls] using h

/-- A string goes on for ever only where the draw is `none`: otherwise the second run ends. -/
theorem stringRest_ends (cell : Word → List Byte) {s : State} {k : Nat} (hm : Memory.wf s.mem)
    (h : Config.yesRun s.console.draws = some k) : ∃ t, stringRest cell Config.kbsrAddr s = .next t := by
  obtain ⟨t, e⟩ := stringLoop_ends cell (fun t => .next t.dropPolls) (fun _ _ => stringForever)
    (f := 65536 * (k + 1)) (a := Config.kbsrAddr) (s := s.drawPolls k) (d := 0) hm (by decide) (drawn_polls_end s k) (by omega)
  refine ⟨t.dropPolls, ?_⟩
  unfold stringRest
  rw [h]
  exact e

end Sys2Proof.Machine
end

