-- ==== Sys2Proof/Laws/PerInstr.lean ====
section
/-! SUPPORT. For every instruction, its word matches its own row of spec/opcode_table.json: the bits of the row's
mask have the row's match value. -/

namespace Sys2Proof.Laws

/-- The "mask" of the instruction's row. -/
def rowMask : Instr → Word
  | .br _ _ => 0xF000#16
  | .addR _ _ _ => 0xF020#16
  | .addI _ _ _ => 0xF020#16
  | .ld _ _ => 0xF000#16
  | .st _ _ => 0xF000#16
  | .jsr _ => 0xF800#16
  | .jsrr _ => 0xF800#16
  | .andR _ _ _ => 0xF020#16
  | .andI _ _ _ => 0xF020#16
  | .ldr _ _ _ => 0xF000#16
  | .str _ _ _ => 0xF000#16
  | .rsv8 => 0xF000#16
  | .not _ _ => 0xF000#16
  | .ldi _ _ => 0xF000#16
  | .sti _ _ => 0xF000#16
  | .jmp _ => 0xF000#16
  | .rsvd => 0xF000#16
  | .lea _ _ => 0xF000#16
  | .trap _ => 0xF000#16
  | .ret => 0xF1C0#16
  | .getc => 0xF0FF#16
  | .out => 0xF0FF#16
  | .puts => 0xF0FF#16
  | .inp => 0xF0FF#16
  | .putsp => 0xF0FF#16
  | .halt => 0xF0FF#16

/-- The "match" of the instruction's row. -/
def rowMatch : Instr → Word
  | .br _ _ => 0x0000#16
  | .addR _ _ _ => 0x1000#16
  | .addI _ _ _ => 0x1020#16
  | .ld _ _ => 0x2000#16
  | .st _ _ => 0x3000#16
  | .jsr _ => 0x4800#16
  | .jsrr _ => 0x4000#16
  | .andR _ _ _ => 0x5000#16
  | .andI _ _ _ => 0x5020#16
  | .ldr _ _ _ => 0x6000#16
  | .str _ _ _ => 0x7000#16
  | .rsv8 => 0x8000#16
  | .not _ _ => 0x9000#16
  | .ldi _ _ => 0xA000#16
  | .sti _ _ => 0xB000#16
  | .jmp _ => 0xC000#16
  | .rsvd => 0xD000#16
  | .lea _ _ => 0xE000#16
  | .trap _ => 0xF000#16
  | .ret => 0xC1C0#16
  | .getc => 0xF020#16
  | .out => 0xF021#16
  | .puts => 0xF022#16
  | .inp => 0xF023#16
  | .putsp => 0xF024#16
  | .halt => 0xF025#16

/-- The word of `i` matches the row of `i`. -/
def TableRow.Statement (i : Instr) : Prop := encode i &&& rowMask i = rowMatch i

theorem pack9_row (op : Opcode) (hi : BitVec 3) (lo : BitVec 9) :
    pack9 op hi lo &&& 0xF000#16 = op.setWidth 16 <<< 12 := by
  apply BitVec.eq_of_getLsbD_eq
  intro i hi
  rw [BitVec.getLsbD_and, pack9_getLsbD]
  interval_cases i <;> simp

theorem pack6_row (op : Opcode) (hi mid : BitVec 3) (lo : BitVec 6) :
    pack6 op hi mid lo &&& 0xF000#16 = op.setWidth 16 <<< 12 := by
  apply BitVec.eq_of_getLsbD_eq
  intro i hi
  rw [BitVec.getLsbD_and, pack6_getLsbD]
  interval_cases i <;> simp

theorem pack6_row_reg (op : Opcode) (hi mid lo : BitVec 3) :
    pack6 op hi mid (0#3 ++ lo) &&& 0xF020#16 = op.setWidth 16 <<< 12 := by
  apply BitVec.eq_of_getLsbD_eq
  intro i hi
  rw [BitVec.getLsbD_and, pack6_getLsbD, BitVec.getLsbD_append]
  interval_cases i <;> simp

theorem pack6_row_imm (op : Opcode) (hi mid : BitVec 3) (lo : BitVec 5) :
    pack6 op hi mid (1#1 ++ lo) &&& 0xF020#16 = op.setWidth 16 <<< 12 ||| 0x0020#16 := by
  apply BitVec.eq_of_getLsbD_eq
  intro i hi
  rw [BitVec.getLsbD_and, pack6_getLsbD, BitVec.getLsbD_append]
  interval_cases i <;> simp

theorem pack8_row (op : Opcode) (lo : BitVec 8) : pack8 op lo &&& 0xF000#16 = op.setWidth 16 <<< 12 := by
  apply BitVec.eq_of_getLsbD_eq
  intro i hi
  rw [BitVec.getLsbD_and, pack8_getLsbD]
  interval_cases i <;> simp

theorem jsr_row (lo : BitVec 11) : pack11 0x4#4 1#1 lo &&& 0xF800#16 = 0x4800#16 := by
  apply BitVec.eq_of_getLsbD_eq
  intro i hi
  rw [BitVec.getLsbD_and, pack11_getLsbD]
  interval_cases i <;> simp

end Sys2Proof.Laws

theorem Sys2Proof.Laws.TableRow.br (nzp : BitVec 3) (off : BitVec 9) :
    Sys2Proof.Laws.TableRow.Statement (.br nzp off) := Sys2Proof.Laws.pack9_row _ _ _

theorem Sys2Proof.Laws.TableRow.addR (d a b : Sys2Proof.Reg) :
    Sys2Proof.Laws.TableRow.Statement (.addR d a b) := Sys2Proof.Laws.pack6_row_reg _ _ _ _

theorem Sys2Proof.Laws.TableRow.addI (d a : Sys2Proof.Reg) (i : BitVec 5) :
    Sys2Proof.Laws.TableRow.Statement (.addI d a i) := Sys2Proof.Laws.pack6_row_imm _ _ _ _

theorem Sys2Proof.Laws.TableRow.ld (d : Sys2Proof.Reg) (o : BitVec 9) :
    Sys2Proof.Laws.TableRow.Statement (.ld d o) := Sys2Proof.Laws.pack9_row _ _ _

theorem Sys2Proof.Laws.TableRow.st (r : Sys2Proof.Reg) (o : BitVec 9) :
    Sys2Proof.Laws.TableRow.Statement (.st r o) := Sys2Proof.Laws.pack9_row _ _ _

theorem Sys2Proof.Laws.TableRow.jsr (o : BitVec 11) :
    Sys2Proof.Laws.TableRow.Statement (.jsr o) := Sys2Proof.Laws.jsr_row _

theorem Sys2Proof.Laws.TableRow.jsrr (b : Sys2Proof.Reg) :
    Sys2Proof.Laws.TableRow.Statement (.jsrr b) := by cases b <;> rfl

theorem Sys2Proof.Laws.TableRow.andR (d a b : Sys2Proof.Reg) :
    Sys2Proof.Laws.TableRow.Statement (.andR d a b) := Sys2Proof.Laws.pack6_row_reg _ _ _ _

theorem Sys2Proof.Laws.TableRow.andI (d a : Sys2Proof.Reg) (i : BitVec 5) :
    Sys2Proof.Laws.TableRow.Statement (.andI d a i) := Sys2Proof.Laws.pack6_row_imm _ _ _ _

theorem Sys2Proof.Laws.TableRow.ldr (d b : Sys2Proof.Reg) (o : BitVec 6) :
    Sys2Proof.Laws.TableRow.Statement (.ldr d b o) := Sys2Proof.Laws.pack6_row _ _ _ _

theorem Sys2Proof.Laws.TableRow.str (r b : Sys2Proof.Reg) (o : BitVec 6) :
    Sys2Proof.Laws.TableRow.Statement (.str r b o) := Sys2Proof.Laws.pack6_row _ _ _ _

theorem Sys2Proof.Laws.TableRow.rsv8 :
    Sys2Proof.Laws.TableRow.Statement (.rsv8) := rfl

theorem Sys2Proof.Laws.TableRow.not (d r : Sys2Proof.Reg) :
    Sys2Proof.Laws.TableRow.Statement (.not d r) := Sys2Proof.Laws.pack6_row _ _ _ _

theorem Sys2Proof.Laws.TableRow.ldi (d : Sys2Proof.Reg) (o : BitVec 9) :
    Sys2Proof.Laws.TableRow.Statement (.ldi d o) := Sys2Proof.Laws.pack9_row _ _ _

theorem Sys2Proof.Laws.TableRow.sti (r : Sys2Proof.Reg) (o : BitVec 9) :
    Sys2Proof.Laws.TableRow.Statement (.sti r o) := Sys2Proof.Laws.pack9_row _ _ _

theorem Sys2Proof.Laws.TableRow.jmp (b : Sys2Proof.Reg) :
    Sys2Proof.Laws.TableRow.Statement (.jmp b) := Sys2Proof.Laws.pack6_row _ _ _ _

theorem Sys2Proof.Laws.TableRow.rsvd :
    Sys2Proof.Laws.TableRow.Statement (.rsvd) := rfl

theorem Sys2Proof.Laws.TableRow.lea (d : Sys2Proof.Reg) (o : BitVec 9) :
    Sys2Proof.Laws.TableRow.Statement (.lea d o) := Sys2Proof.Laws.pack9_row _ _ _

theorem Sys2Proof.Laws.TableRow.trap (v : Sys2Proof.Byte) :
    Sys2Proof.Laws.TableRow.Statement (.trap v) := Sys2Proof.Laws.pack8_row _ _

theorem Sys2Proof.Laws.TableRow.ret :
    Sys2Proof.Laws.TableRow.Statement (.ret) := rfl

theorem Sys2Proof.Laws.TableRow.getc :
    Sys2Proof.Laws.TableRow.Statement (.getc) := rfl

theorem Sys2Proof.Laws.TableRow.out :
    Sys2Proof.Laws.TableRow.Statement (.out) := rfl

theorem Sys2Proof.Laws.TableRow.puts :
    Sys2Proof.Laws.TableRow.Statement (.puts) := rfl

theorem Sys2Proof.Laws.TableRow.inp :
    Sys2Proof.Laws.TableRow.Statement (.inp) := rfl

theorem Sys2Proof.Laws.TableRow.putsp :
    Sys2Proof.Laws.TableRow.Statement (.putsp) := rfl

theorem Sys2Proof.Laws.TableRow.halt :
    Sys2Proof.Laws.TableRow.Statement (.halt) := rfl
end

