-- ==== Sys2Proof/Laws/Step.lean ====
section
/-! SUPPORT. What a step and a fetch can do, said once; the scripted keyboard polls; what a register write and a store
amount to in the terms of Safety. -/

namespace Sys2Proof.Machine

/-! ### The fetch (40 R131) -/

@[simp] theorem State.fetch_regs (s : State) : s.fetch.2.regs = s.regs := by simp [State.fetch]
@[simp] theorem State.fetch_reg (s : State) (r : Reg) : s.fetch.2.reg r = s.reg r := by simp [State.fetch]
@[simp] theorem State.fetch_pc (s : State) : s.fetch.2.pc = s.pc + 1 := rfl
@[simp] theorem State.fetch_cond (s : State) : s.fetch.2.cond = s.cond := by simp [State.fetch]
@[simp] theorem State.fetch_running (s : State) : s.fetch.2.running = s.running := by simp [State.fetch]
@[simp] theorem State.fetch_stopReason (s : State) : s.fetch.2.stopReason = s.stopReason := by simp [State.fetch]
@[simp] theorem State.fetch_output (s : State) : s.fetch.2.console.output = s.console.output := by
  simp [State.fetch]

theorem State.fetch_wf {s : State} (h : Memory.wf s.mem) : Memory.wf s.fetch.2.mem := State.afterRead_wf _ h

theorem State.fetch_other (s : State) (h : s.pc ≠ Config.kbsrAddr) :
    s.fetch = (readWord s.mem s.pc, { s with pc := s.pc + 1 }) := by
  unfold State.fetch
  rw [State.memRead_other s h]
  rfl

/-- A step answers a next state in two ways only: it starts the run, or it runs the decoded instruction. -/
theorem step_next {s t : State} (h : step s = .next t) :
    (s.running = true ∧ exec (decode s.fetch.1) s.fetch.2 = .next t) ∨
    (s.running = false ∧ s.stopReason = .none ∧ t = s.startRun) := by
  unfold step at h
  split at h
  · rename_i hr
    exact .inl ⟨hr, h⟩
  · rename_i hr
    split at h
    · rename_i hs
      cases h
      exact .inr ⟨by simpa using hr, hs, rfl⟩
    · cases h
    · cases h

/-! ### Scripted polls (20 R62) -/

theorem State.pollKeyboard_yes {s : State} {ps : List Bool} {c : Byte} {cs : List Byte}
    (hp : s.console.polls = true :: ps) (hi : s.console.input = c :: cs) :
    s.pollKeyboard =
      { s with
        mem := writeWord (writeWord s.mem Config.kbsrAddr Config.kbReady) Config.kbdrAddr (c.setWidth 16)
        console := { s.console with polls := ps, input := cs } } := by
  unfold State.pollKeyboard
  rw [Console.poll_yes hp hi]

theorem State.pollKeyboard_no {s : State} {ps : List Bool} (hp : s.console.polls = false :: ps) :
    s.pollKeyboard =
      { s with
        mem := writeWord s.mem Config.kbsrAddr 0x0000#16
        console := { s.console with polls := ps } } := by
  unfold State.pollKeyboard
  rw [Console.poll_no hp]

theorem State.memRead_kbsr (s : State) :
    s.memRead Config.kbsrAddr = (readWord s.pollKeyboard.mem Config.kbsrAddr, s.pollKeyboard) := by
  unfold State.memRead
  rw [State.afterRead_kbsr]

theorem kbdr_ne_kbsr : Config.kbdrAddr ≠ Config.kbsrAddr := by decide

/-! ### In the terms of Safety -/

theorem writeReg_writesRegister (s : State) (d : Reg) (v : Word) : WritesRegister s (s.writeReg d v) d v :=
  ⟨s.writeReg_reg_same d v, fun _ h => s.writeReg_reg_other v h, (s.writeReg_cond d v).trans (condOf_eq_flagOf v),
    rfl, fun _ => rfl, rfl, rfl, rfl, rfl⟩

theorem memWrite_storesWord {s : State} (h : Memory.wf s.mem) (a v : Word) : StoresWord s (s.memWrite a v) a v :=
  ⟨readWord_writeWord_same a v h, fun _ hb => readWord_writeWord_other _ _ hb, fun _ => rfl, rfl, rfl, rfl, rfl, rfl⟩

theorem memRead_reads (s : State) (a : Word) : Reads s (s.afterRead a) a (s.memRead a).1 :=
  ⟨rfl, fun h => by rw [h, State.afterRead_kbsr], fun h => s.afterRead_other h⟩

end Sys2Proof.Machine
end

