-- ==== Sys2Proof/Tests/Slice0.lean ====
section
/-! SUPPORT. The model's own tests: expected results are the spec's (the section of 95 or the rule is named), and a
witness for each statement's hypotheses. -/

namespace Sys2Proof.Tests

open Sys2Proof Sys2Proof.Machine

/-! ### WellFormed -/

theorem test_wellFormed_refuses_jmp_r7 : (Instr.jmp .r7).wellFormed = false := by decide
theorem test_wellFormed_refuses_named_selector : (Instr.trap 0x25#8).wellFormed = false := by decide
theorem test_wellFormed_accepts : (Instr.jmp .r3).wellFormed = true ∧ (Instr.trap 0x26#8).wellFormed = true := by
  decide

/-! ### Decode: words written out bit by bit from 30 R101 -/

theorem test_decode_br : decode 0b0000_010_000000010#16 = .br 0b010#3 2#9 := by decide
theorem test_decode_addR : decode 0b0001_010_000_0_11_001#16 = .addR .r2 .r0 .r1 := by decide
theorem test_decode_addI : decode 0b0001_001_000_1_11110#16 = .addI .r1 .r0 0b11110#5 := by decide
theorem test_decode_ld : decode 0b0010_000_111111110#16 = .ld .r0 0x1FE#9 := by decide
theorem test_decode_st : decode 0b0011_001_000000010#16 = .st .r1 2#9 := by decide
theorem test_decode_jsr : decode 0b0100_1_00000000100#16 = .jsr 4#11 := by decide
theorem test_decode_jsrr : decode 0b0100_0_11_011_101010#16 = .jsrr .r3 := by decide
theorem test_decode_andR : decode 0b0101_011_001_0_00_010#16 = .andR .r3 .r1 .r2 := by decide
theorem test_decode_andI : decode 0b0101_000_000_1_10000#16 = .andI .r0 .r0 0b10000#5 := by decide
theorem test_decode_ldr : decode 0b0110_100_101_111111#16 = .ldr .r4 .r5 0b111111#6 := by decide
theorem test_decode_str : decode 0b0111_100_110_000011#16 = .str .r4 .r6 3#6 := by decide
theorem test_decode_rsv8 : decode 0b1000_111111111111#16 = .rsv8 := by decide
theorem test_decode_not : decode 0b1001_100_011_111111#16 = .not .r4 .r3 := by decide
theorem test_decode_ldi : decode 0b1010_010_100000000#16 = .ldi .r2 0x100#9 := by decide
theorem test_decode_sti : decode 0b1011_011_000000000#16 = .sti .r3 0#9 := by decide
theorem test_decode_jmp : decode 0b1100_101_010_000001#16 = .jmp .r2 := by decide
theorem test_decode_ret : decode 0b1100_000_111_000000#16 = .ret := by decide
theorem test_decode_rsvd : decode 0b1101_000000000000#16 = .rsvd := by decide
theorem test_decode_lea : decode 0b1110_000_000000101#16 = .lea .r0 5#9 := by decide
theorem test_decode_trap : decode 0b1111_0000_00100110#16 = .trap 0x26#8 := by decide
theorem test_decode_getc : decode 0b1111_0000_00100000#16 = .getc := by decide
theorem test_decode_out : decode 0b1111_0000_00100001#16 = .out := by decide
theorem test_decode_puts : decode 0b1111_0000_00100010#16 = .puts := by decide
theorem test_decode_in : decode 0b1111_0000_00100011#16 = .inp := by decide
theorem test_decode_putsp : decode 0b1111_0000_00100100#16 = .putsp := by decide
theorem test_decode_halt : decode 0b1111_0001_00100101#16 = .halt := by decide
theorem test_decodeTableWord : decodeTableWord 16 0x4804 = some (.jsr 4#11) ∧ decodeTableWord 16 65536 = none := by
  decide
theorem test_sext : sext5 0b10000#5 = 0xFFF0#16 ∧ sext6 0b100000#6 = 0xFFE0#16 ∧ sext9 0x100#9 = 0xFF00#16 ∧
    sext11 0x400#11 = 0xFC00#16 ∧ sext11 0x3FF#11 = 0x03FF#16 ∧ signExtend 0x0F0F#16 5 = 0x0F0F#16 := by decide

/-! ### Steps (95 2.3 to 2.9) -/

/-- A running machine with the Word `w` at `pc`. -/
def start (pc w : Word) : State := ({ State.reset with running := true, pc := pc } : State).memWrite pc w

/-- What `f` says of the next state, if there is one. -/
def look {α : Type} (o : Host.Outcome State Fault Refusal) (f : State → α) : Option α :=
  match o with
  | .next s => some (f s)
  | .fault _ => none
  | .refused _ => none

/-- The console with these answers and characters to come, and no more. -/
def keys (polls : List Bool) (input : List Byte) : Console := ⟨polls, input, true, 0, []⟩

theorem test_run_starts : look (step State.reset) (fun t => (t.pc, t.running)) = some (0x3000#16, true) := by decide
theorem test_br_taken : look (step { start 0x3000 0x0402 with cond := 2 }) State.pc = some 0x3003#16 := by decide
theorem test_br_wraps : look (step { start 0x0000 0x09FE with cond := 4 }) State.pc = some 0xFFFF#16 := by decide
theorem test_addR : look (step ((start 0x3000 0x1401).setReg .r0 0x7FFF |>.setReg .r1 1))
    (fun t => (t.reg .r2, t.cond)) = some (0x8000#16, 4#16) := by decide
theorem test_addI : look (step ((start 0x3000 0x123E).setReg .r0 10)) (fun t => (t.reg .r1, t.cond, t.reg .r0)) =
    some (8#16, 1#16, 10#16) := by decide
theorem test_andR : look (step ((start 0x3000 0x5642).setReg .r1 0xF0F0 |>.setReg .r2 0x8F0F))
    (fun t => (t.reg .r3, t.cond)) = some (0x8000#16, 4#16) := by decide
theorem test_andI : look (step ((start 0x3000 0x5020).setReg .r0 0x1234)) (fun t => (t.reg .r0, t.cond)) =
    some (0#16, 2#16) := by decide
theorem test_not : look (step ((start 0x3000 0x98FF).setReg .r3 0x00FF)) (fun t => (t.reg .r4, t.cond)) =
    some (0xFF00#16, 4#16) := by decide
theorem test_ld_wraps : look (step ((start 0x0000 0x21FE).memWrite 0xFFFF 0x8888)) (fun t => (t.reg .r0, t.cond)) =
    some (0x8888#16, 4#16) := by decide
theorem test_st_over_itself : look (step ((start 0x3000 0x33FF).setReg .r1 0xBEEF))
    (fun t => (readWord t.mem 0x3000, t.cond)) = some (0xBEEF#16, 0#16) := by decide
theorem test_ldi : look (step ((start 0x0063 0xA400).memWrite 100 200 |>.memWrite 200 0x1234))
    (fun t => (t.reg .r2, t.cond, t.pc)) = some (0x1234#16, 1#16, 0x0064#16) := by decide
theorem test_ldi_polls : look
    (step { (start 0x3000 0xA001).memWrite 0x3002 0xFE00 with console := keys [true] [0x61] })
    (fun t => (readWord t.mem 0xFE00, readWord t.mem 0xFE02, t.reg .r0, t.cond, t.console.input)) =
    some (0x8000#16, 0x0061#16, 0x8000#16, 4#16, []) := by decide
theorem test_sti : look (step ((start 0x3000 0xB600).memWrite 0x3001 0x4000 |>.setReg .r3 0x0042))
    (fun t => readWord t.mem 0x4000) = some 0x0042#16 := by decide
theorem test_ldr_wraps : look (step ((start 0x3000 0x6141).setReg .r5 0xFFFF |>.memWrite 0 0x0077))
    (fun t => (t.reg .r0, t.cond)) = some (0x0077#16, 1#16) := by decide
theorem test_ldr_base_is_destination : look (step ((start 0x3000 0x6B7F).setReg .r5 0x4001 |>.memWrite 0x4000 0x8001))
    (fun t => (t.reg .r5, t.cond)) = some (0x8001#16, 4#16) := by decide
theorem test_str : look (step ((start 0x3000 0x7983).setReg .r6 0x4000 |>.setReg .r4 0x00AA))
    (fun t => readWord t.mem 0x4003) = some 0x00AA#16 := by decide
theorem test_lea_sets_cond : look (step (start 0x8000 0xE000)) (fun t => (t.reg .r0, t.cond)) =
    some (0x8001#16, 4#16) := by decide
theorem test_jmp : look (step ((start 0x3000 0xC080).setReg .r2 0x4000)) (fun t => (t.pc, t.cond)) =
    some (0x4000#16, 0#16) := by decide
theorem test_ret : look (step ((start 0x3000 0xC1C0).setReg .r7 0x1234)) State.pc = some 0x1234#16 := by decide
theorem test_jsr_at_the_top : look (step (start 0xFFFF 0x4800)) (fun t => (t.reg .r7, t.cond, t.pc)) =
    some (0#16, 2#16, 0#16) := by decide
theorem test_jsrr_r7 : look (step ((start 0x3000 0x41C0).setReg .r7 0x5000)) (fun t => (t.reg .r7, t.cond, t.pc)) =
    some (0x3001#16, 1#16, 0x3001#16) := by decide
theorem test_getc_zero : look (step { start 0x3000 0xF020 with console := keys [] [0x00] })
    (fun t => (t.reg .r0, t.cond, t.reg .r7, t.console.output)) = some (0#16, 2#16, 0x3001#16, []) := by decide
theorem test_getc_waits : step { start 0x3000 0xF020 with console := keys [] [] } = .fault .awaitingInput := rfl
theorem test_out_seven_bits : look (step ((start 0x3000 0xF021).setReg .r0 0x00C1)) (fun t => t.console.output) =
    some [0x41#8] := by decide
theorem test_puts : look (step ((start 0x3000 0xF022).setReg .r0 0x4000 |>.memWrite 0x4000 0x0100
    |>.memWrite 0x4001 0x0041)) (fun t => (t.console.output, t.reg .r0, t.cond)) =
    some ([0x00#8, 0x41#8], 0x4000#16, 1#16) := by decide
/-- 45 R234 (d), 20 R62: the poll at KBSR_ADDR reads 0x8000 and puts the character 0 in KBDR, which ends the string. -/
theorem test_puts_ends_at_kbdr : look (step { (start 0x3000 0xF022).setReg .r0 0xFE00 |>.memWrite 0xFE01 0x0041 with
    console := keys [true] [0x00] }) (fun t => t.console.output) = some [0x00#8, 0x41#8] := by decide
theorem test_in : look (step { start 0x3000 0xF023 with console := keys [] [0x37] })
    (fun t => (t.reg .r0, t.cond)) = some (0x0037#16, 1#16) := by decide
theorem test_putsp : look (step ((start 0x3000 0xF024).setReg .r0 0x4000 |>.memWrite 0x4000 0x4100
    |>.memWrite 0x4001 0x0021)) (fun t => t.console.output) = some [0x00#8, 0x41#8, 0x21#8] := by decide
theorem test_halt : look (step (start 0x3005 0xF025)) (fun t => (t.running, t.stopReason, t.reg .r7, t.pc, t.cond)) =
    some (false, .halt, 0x3006#16, 0x3006#16, 1#16) := by decide
theorem test_trap_unknown : look (step (start 0x3000 0xF0FF)) (fun t => (t.reg .r7, t.cond, t.pc, t.running)) =
    some (0x3001#16, 1#16, 0x3001#16, true) := by decide
theorem test_rsvd : look (step ({ start 0x3000 0xD000 with cond := 1 } : State))
    (fun t => (t.running, t.stopReason, t.pc, t.cond)) = some (false, .abort 0xD#4, 0x3001#16, 1#16) := by decide
theorem test_rsv8_from_the_status_word : look
    (step { State.reset with running := true, pc := 0xFE00, console := keys [true] [0x41] })
    (fun t => (t.stopReason, t.pc, readWord t.mem 0xFE02)) = some (.abort 0x8#4, 0xFE01#16, 0x0041#16) := by decide
theorem test_withFetchWord : look (step (State.reset.withFetchWord 16 0xE005)) (fun t => (t.reg .r0, t.pc)) =
    some (0x3006#16, 0x3001#16) := by decide
theorem test_loadImage : (match State.reset.loadImage [0x30, 0x00, 0x12, 0x34, 0xAB, 0xCD] with
    | .ok t => some (readWord t.mem 0x3000, readWord t.mem 0x3001)
    | .error _ => none) = some (0x1234#16, 0xABCD#16) := by decide

/-! ### Witnesses: each statement's hypotheses can be met -/

/-- A running machine at 0x3000 over zero Memory. -/
def idle : State := { State.reset with running := true }

/-- The state witnesses load from: running at KBSR_ADDR. -/
def atStatus : State := { idle with pc := 0xFE00 }

theorem witness_memory_wf : Memory.wf idle.mem ∧ Memory.wf (start 0x3000 0xF022).mem := by decide

theorem witness_DecodeOfEncode :
    (Instr.jmp .r6).wellFormed = true ∧ (Instr.trap 0x1F#8).wellFormed = true ∧
      (Instr.addI .r7 .r0 0b10000#5).wellFormed = true := by decide

theorem witness_IgnoredBits : (0x1401#16 ^^^ 0x1419#16) &&& (decode 0x1401#16).readBits = 0#16 := by decide

theorem witness_SignExtend : (0x0010#16).getLsbD (5 - 1) = true ∧ (0x000F#16).getLsbD (5 - 1) = false ∧
    (0x0001#16).getLsbD (1 - 1) = true ∧ (0x4000#16).getLsbD (15 - 1) = true ∧ (0x3FFF#16).getLsbD (15 - 1) = false := by
  decide

theorem witness_BranchTaken : ∃ k, k < 3 ∧ (0b100#3).getLsbD k = true ∧ (4#16).getLsbD k = true :=
  ⟨2, by decide⟩
theorem witness_BranchNotTaken : ∀ k, k < 3 → (0b101#3).getLsbD k = true → (2#16).getLsbD k = false := by decide
theorem witness_BranchTestsTheSign : (0x8000#16).toInt < 0 ∧ (0#16).toInt = 0 ∧ (0x7FFF#16).toInt > 0 ∧
    ¬(((0b001#3).getLsbD 2 = true ∧ (0#16).toInt < 0) ∨ ((0b001#3).getLsbD 1 = true ∧ (0#16).toInt = 0) ∨
      ((0b001#3).getLsbD 0 = true ∧ (0#16).toInt > 0)) := by decide

theorem witness_SetCond : ((∃ t, exec (.st .r0 0#9) idle = .next t) ∧ (Instr.st .r0 0#9).writesLast = none) ∧
    ((∃ t, exec .halt idle = .next t) ∧ Instr.halt.writesLast = some .r7) := ⟨⟨⟨_, rfl⟩, rfl⟩, ⟨_, rfl⟩, rfl⟩

/-- The first write of an equal value (95 P1: AND R0, R0, #0 where R0 is 0 and COND is 0). -/
theorem witness_EqualWrite : (start 0x3000 0x5020).running = true ∧
    (decode (start 0x3000 0x5020).fetch.1).writesLast ≠ none ∧
    look (step (start 0x3000 0x5020)) State.cond = some 2#16 := by decide

/-- Two steps' hypotheses: one keeps COND's flag, one changes a register. -/
theorem witness_StepKeepsFlag :
    (∃ t, step { idle with cond := 2 } = .next t) ∧ CondOneFlag { idle with cond := 2 } ∧
      (∃ t, step (start 0x3000 0xE005) = .next t ∧ ∃ r, t.reg r ≠ (start 0x3000 0xE005).reg r) :=
  ⟨⟨_, rfl⟩, .inr (.inl rfl), ⟨_, rfl, .r0, by decide⟩⟩

theorem witness_StepKeepsCondFollowing : (∃ t, step { idle with cond := 2 } = .next t) ∧
    CondFollowsARegister { idle with cond := 2 } := ⟨⟨_, rfl⟩, .inr ⟨.r0, by decide⟩⟩

theorem witness_ReadElsewhere : 0xFDFF#16 ≠ Config.kbsrAddr ∧ 0xFE01#16 ≠ Config.kbsrAddr ∧
    Config.kbdrAddr ≠ Config.kbsrAddr := by decide

theorem witness_StatusRead :
    ({ idle with console := keys [true] [0x61] } : State).console.polls = true :: [] ∧
    ({ idle with console := keys [true] [0x61] } : State).console.input = 0x61#8 :: [] ∧
    ({ idle with console := keys [false] [] } : State).console.polls = false :: [] ∧
    ({ idle with console := keys [] [] } : State).console.ended = true := ⟨rfl, rfl, rfl, rfl⟩

/-- An effective address at KBSR_ADDR: PC-relative, base plus offset, and through a pointer. -/
theorem witness_LoadsAtTheStatusWord : Memory.wf idle.mem ∧
    ({ idle with pc := 0xFDFF } : State).pc + sext9 1#9 = Config.kbsrAddr ∧
    (idle.setReg .r2 0xFE01).reg .r2 + sext6 0b111111#6 = Config.kbsrAddr ∧
    ((start 0x3000 0xFE00).pointer 0#9).1 = Config.kbsrAddr := by decide

/-- BaseR of JSRR other than R7. -/
theorem witness_Calls : Reg.r0 ≠ .r7 ∧ Reg.r6 ≠ .r7 := by decide

theorem witness_TwoStatusReads : (keys [true, true] [1, 2]).polls = true :: true :: [] ∧
    (keys [true, true] [1, 2]).input = 1#8 :: 2#8 :: [] := ⟨rfl, rfl⟩

theorem witness_StepKeepsMemory : (∃ t, step (start 0x3000 0x3202) = .next t) ∧
    Memory.wf (start 0x3000 0x3202).mem := ⟨⟨_, rfl⟩, by decide⟩

theorem witness_StoreIsSeen :
    (idle.pc + sext9 0#9 = idle.pc ∧ ∃ t, exec (.st .r1 0#9) idle = .next t) ∧
    ((idle.setReg .r2 0x3001).reg .r2 + sext6 0b111111#6 = idle.pc ∧
      ∃ t, exec (.str .r1 .r2 0b111111#6) (idle.setReg .r2 0x3001) = .next t) ∧
    Memory.wf idle.mem ∧ idle.running = true ∧ idle.pc ≠ Config.kbsrAddr := by
  refine ⟨⟨by decide, _, rfl⟩, ⟨by decide, _, rfl⟩, by decide, rfl, by decide⟩

theorem witness_UnknownSelector : namedSelectors.contains 0x1F#8 = false ∧
    namedSelectors.contains 0x26#8 = false := by decide

theorem witness_Getc_In : (keys [] [0x78]).input = 0x78#8 :: [] ∧ Console.fresh.input = [] ∧
    Console.fresh.ended = false ∧ (keys [] []).input = [] ∧ (keys [] []).ended = true := ⟨rfl, rfl, rfl, rfl, rfl⟩

/-- "HI" at 0x4000 (95 S11). -/
def hi : State :=
  ((idle.setReg .r0 0x4000).memWrite 0x4000 0x0048).memWrite 0x4001 0x0049

theorem witness_Strings : StringAt hi.mem (hi.reg .r0) [0x0048, 0x0049] ∧ StringAt idle.mem (idle.reg .r0) [] :=
  ⟨⟨by decide, by decide, by decide, by decide, by decide, by decide, by decide, by decide⟩, ⟨by decide, by decide⟩⟩

theorem witness_StringsComplete : 0xFDFF#16 ≠ Config.kbsrAddr ∧ 0xFDFF#16 ≠ Config.kbdrAddr ∧
    readWord idle.mem 0xFDFF = 0#16 := by decide

/-- `hi` with a no scripted, with its input ended, and with a character 0 to come. -/
theorem witness_EndlessKeys : false ∈ (keys [true, false] [0x61]).polls ∧ (keys [] []).ended = true ∧
    0x00#8 ∈ (keys [true] [0x61, 0x00]).input ∧
    Memory.wf { hi with console := keys [true, false] [0x61] }.mem := by decide

theorem witness_StringAtStatus : Memory.wf (idle.setReg .r0 0xFE00).mem ∧
    ({ idle.setReg .r0 0xFE00 with console := keys [false] [] } : State).reg .r0 = Config.kbsrAddr ∧
    ({ idle.setReg .r0 0xFE00 with console := keys [false] [] } : State).console.polls = false :: [] := by decide

theorem witness_StringFrame : (∃ t, exec .puts idle = .next t) ∧ (∃ t, exec .putsp idle = .next t) :=
  ⟨⟨_, rfl⟩, ⟨_, rfl⟩⟩

theorem witness_StepRuns : idle.running = true ∧ idle.pc ≠ Config.kbsrAddr ∧ atStatus.running = true ∧
    atStatus.pc = Config.kbsrAddr := by decide

theorem witness_FetchFromStatus : Memory.wf atStatus.mem ∧
    ({ atStatus with console := keys [true] [0x41] } : State).console.polls = true :: [] ∧
    ({ atStatus with console := keys [true] [0x41] } : State).console.input = 0x41#8 :: [] ∧
    ({ atStatus with console := keys [false] [] } : State).console.polls = false :: [] := by decide

theorem witness_PlacedWord : Memory.wf atStatus.mem ∧ 0 < 65536 ∧ 65535 < 65536 := by decide

theorem witness_RunStarts : State.reset.running = false ∧ State.reset.stopReason = .none := ⟨rfl, rfl⟩

theorem witness_Stopped : (idle.stop .halt).running = false ∧ (idle.stop .halt).stopReason ≠ .none := by decide

theorem witness_StepGoesOn : idle.running = true ∧ idle.stopReason = .none ∧ (∃ t, step idle = .next t) ∧
    (∃ t, step (start 0x3000 0xF025) = .next t) ∧ ∃ t, step (start 0x3000 0xD000) = .next t :=
  ⟨rfl, rfl, ⟨_, rfl⟩, ⟨_, rfl⟩, ⟨_, rfl⟩⟩

/-- The hypotheses of `EveryRunKeepsTheInvariant`: the invariant at reset, and a state one step on. -/
theorem witness_EveryRun : Invariant State.reset ∧ Reaches State.reset State.reset.startRun :=
  ⟨⟨by decide, .inl rfl, (fun h => nomatch h), fun _ h => nomatch h⟩, .tail (.refl _) rfl⟩

theorem witness_ZeroMemory : readWord idle.mem idle.pc = 0x0000#16 := by decide

theorem witness_OnlyTransfers : (∃ t, exec (.lea .r0 5#9) idle = .next t) ∧ (Instr.lea .r0 5#9).transfers = false ∧
    (Instr.lea .r0 5#9).stores = false ∧ (Instr.lea .r0 5#9).traps = false ∧ (Instr.lea .r0 5#9).reserved = false :=
  ⟨⟨_, rfl⟩, rfl, rfl, rfl, rfl⟩

theorem witness_Load : Memory.wf State.reset.mem ∧ State.reset.running = false ∧ State.reset.stopReason = .none ∧
    (0xFFFE#16).toNat + [1#16, 2#16].length ≤ 65536 := by decide

theorem witness_LoadRefuses : 65536 < (0xFFFF#16).toNat + [1#16, 2#16].length ∧ [0x30#8].length % 2 = 1 ∧
    idle.running = true ∧ (idle.stop .halt).stopReason ≠ .none := by decide

end Sys2Proof.Tests
end

/-! SUPPORT. Past output is invisible (00 R14, 40 R133): prepending to it commutes with every operation, so with a step. -/

namespace Sys2Proof.Machine

/-! ### Every state operation commutes with prependOutput -/

theorem State.prependOutput_consoleWriteAll (s : State) (out msg : List Byte) :
    (s.prependOutput out).consoleWriteAll msg = (s.consoleWriteAll msg).prependOutput out := by
  simp [State.prependOutput, State.consoleWriteAll]

theorem State.prependOutput_consoleWrite (s : State) (out : List Byte) (b : Byte) :
    (s.prependOutput out).consoleWrite b = (s.consoleWrite b).prependOutput out :=
  s.prependOutput_consoleWriteAll out [b]

/-- The poll takes the same character and leaves the same input side, whatever has been written. -/
theorem State.prependOutput_pollKeyboard (s : State) (out : List Byte) :
    (s.prependOutput out).pollKeyboard = s.pollKeyboard.prependOutput out := by
  have hout := Console.poll_output s.console
  unfold State.pollKeyboard
  rw [State.prependOutput_console, Console.poll_withOutput, ← hout]
  obtain ⟨taken, con⟩ := s.console.poll
  cases taken <;> rfl

theorem State.prependOutput_afterRead (s : State) (out : List Byte) (a : Word) :
    (s.prependOutput out).afterRead a = (s.afterRead a).prependOutput out := by
  by_cases h : a = Config.kbsrAddr
  · rw [h, State.afterRead_kbsr, State.afterRead_kbsr, State.prependOutput_pollKeyboard]
  · rw [State.afterRead_other _ h, State.afterRead_other _ h]

theorem State.prependOutput_memRead (s : State) (out : List Byte) (a : Word) :
    (s.prependOutput out).memRead a = ((s.memRead a).1, (s.memRead a).2.prependOutput out) := by
  simp [State.memRead, State.prependOutput_afterRead]

theorem State.prependOutput_fetch (s : State) (out : List Byte) :
    (s.prependOutput out).fetch = (s.fetch.1, s.fetch.2.prependOutput out) := by
  unfold State.fetch
  rw [State.prependOutput_pc, State.prependOutput_memRead]
  rfl

theorem State.prependOutput_abort (s : State) (out : List Byte) (op : Opcode) :
    (s.prependOutput out).abort op = (s.abort op).prependOutput out := by
  unfold State.abort
  rw [State.prependOutput_consoleWriteAll]
  rfl

theorem State.prependOutput_loadInto (s : State) (out : List Byte) (dr : Reg) (ea : Word) :
    (s.prependOutput out).loadInto dr ea = (s.loadInto dr ea).prependOutput out := by
  unfold State.loadInto
  rw [State.prependOutput_memRead]
  rfl

theorem State.prependOutput_pointer (s : State) (out : List Byte) (off : BitVec 9) :
    (s.prependOutput out).pointer off = ((s.pointer off).1, (s.pointer off).2.prependOutput out) :=
  s.prependOutput_memRead out (s.pcRel9 off)

/-- Output plays no part in a ConsoleRead. -/
theorem Console.read_withOutput (c : Console) (o : List Byte) :
    ({ c with output := o } : Console).read = c.read.map fun p => (p.1, { p.2 with output := o }) := by
  obtain ⟨polls, input, ended, draws, output⟩ := c
  cases input <;> cases ended <;> rfl

/-! ### The meanings -/

/-- `f` answers alike whatever has been written before, but for that output. -/
def IgnoresPastOutput (f : State → Host.Outcome State Fault Refusal) : Prop :=
  ∀ (s : State) (out : List Byte), f (s.prependOutput out) = onNext (fun t => t.prependOutput out) (f s)

theorem stringLoop_ignoresPastOutput (cell : Word → List Byte) {done : State → Host.Outcome State Fault Refusal}
    {more : Word → State → Host.Outcome State Fault Refusal} (hdone : IgnoresPastOutput done)
    (hmore : ∀ a, IgnoresPastOutput (more a)) (n : Nat) (a : Word) :
    IgnoresPastOutput (stringLoop cell done more n a) := by
  intro s out
  induction n generalizing a s with
  | zero => exact hmore a s out
  | succ n ih =>
    unfold stringLoop
    rw [State.prependOutput_memRead]
    split
    · exact hdone _ out
    · rw [State.prependOutput_consoleWriteAll]
      exact ih (a + 1) _

theorem stringRest_ignoresPastOutput (cell : Word → List Byte) (a : Word) :
    IgnoresPastOutput (stringRest cell a) := by
  intro s out
  have hdraws : (s.prependOutput out).console.draws = s.console.draws := rfl
  unfold stringRest
  rw [hdraws]
  cases Config.yesRun s.console.draws with
  | none => rfl
  | some k =>
    exact stringLoop_ignoresPastOutput cell (done := fun t => .next t.dropPolls)
      (more := fun _ _ => stringForever) (fun _ _ => rfl) (fun _ _ _ => rfl) _ a (s.drawPolls k) out

theorem routineString_ignoresPastOutput (cell : Word → List Byte) : IgnoresPastOutput (routineString cell) :=
  fun s out => stringLoop_ignoresPastOutput cell (fun _ _ => rfl) (stringRest_ignoresPastOutput cell)
    (stringFuel s) (s.reg .r0) s out

theorem routineGetc_ignoresPastOutput : IgnoresPastOutput routineGetc := by
  intro s out
  unfold routineGetc
  rw [State.prependOutput_console, Console.read_withOutput]
  cases h : s.console.read with
  | none => rfl
  | some p =>
    obtain ⟨c, con⟩ := p
    simp [onNext, State.prependOutput, State.writeReg, State.updateFlags, State.setReg, State.reg,
      ← Console.read_output h]

theorem routineIn_ignoresPastOutput : IgnoresPastOutput routineIn := by
  intro s out
  unfold routineIn
  rw [State.prependOutput_consoleWriteAll, State.prependOutput_console, Console.read_withOutput]
  cases h : (s.consoleWriteAll Config.inPrompt).console.read with
  | none => rfl
  | some p =>
    obtain ⟨c, con⟩ := p
    simp [onNext, State.prependOutput, State.writeReg, State.updateFlags, State.setReg, State.reg,
      State.consoleWrite, Console.write, Console.read_output h]

theorem routineOut_ignoresPastOutput : IgnoresPastOutput routineOut :=
  fun s out => congrArg Host.Outcome.next (s.prependOutput_consoleWrite out _)

theorem routineHalt_ignoresPastOutput : IgnoresPastOutput routineHalt :=
  fun s out => congrArg (fun t : State => Host.Outcome.next (t.stop .halt))
    (s.prependOutput_consoleWriteAll out Config.haltMsg)

theorem routineUnknown_ignoresPastOutput (reading : UnknownTrap) : IgnoresPastOutput (routineUnknown reading) := by
  cases reading with
  | noOp => exact fun _ _ => rfl
  | abort => exact fun s out => congrArg Host.Outcome.next (s.prependOutput_abort out 0xF#4)

/-- A routine that ignores past output does so after trap entry too, which touches no console. -/
theorem IgnoresPastOutput.afterTrapEntry {f : State → Host.Outcome State Fault Refusal} (h : IgnoresPastOutput f) :
    IgnoresPastOutput fun s => f s.trapEntry :=
  fun s out => h s.trapEntry out

theorem dispatch_ignoresPastOutput (v : Byte) : IgnoresPastOutput (dispatch v) := by
  intro s out
  unfold dispatch
  split_ifs
  · exact routineGetc_ignoresPastOutput s out
  · exact routineOut_ignoresPastOutput s out
  · exact routineString_ignoresPastOutput putsCell s out
  · exact routineIn_ignoresPastOutput s out
  · exact routineString_ignoresPastOutput putspCell s out
  · exact routineHalt_ignoresPastOutput s out
  · exact routineUnknown_ignoresPastOutput _ s out

theorem execBr_ignoresPastOutput (nzp : BitVec 3) (off : BitVec 9) : IgnoresPastOutput (execBr nzp off) := by
  intro s out
  unfold execBr
  rw [State.prependOutput_cond]
  split <;> rfl

theorem execLdi_ignoresPastOutput (dr : Reg) (off : BitVec 9) : IgnoresPastOutput (execLdi dr off) := by
  intro s out
  unfold execLdi
  rw [State.prependOutput_pointer, State.prependOutput_loadInto]
  rfl

theorem execSti_ignoresPastOutput (sr : Reg) (off : BitVec 9) : IgnoresPastOutput (execSti sr off) := by
  intro s out
  unfold execSti
  rw [State.prependOutput_pointer]
  rfl

theorem exec_ignoresPastOutput (i : Instr) : IgnoresPastOutput (exec i) := by
  cases i with
  | addR | addI | andR | andI | not | lea | st | str | jmp | ret | jsr | jsrr => exact fun _ _ => rfl
  | br nzp off => exact execBr_ignoresPastOutput nzp off
  | ld dr off => exact fun s out => congrArg Host.Outcome.next (s.prependOutput_loadInto out dr _)
  | ldr dr base off => exact fun s out => congrArg Host.Outcome.next (s.prependOutput_loadInto out dr _)
  | ldi dr off => exact execLdi_ignoresPastOutput dr off
  | sti sr off => exact execSti_ignoresPastOutput sr off
  | rsv8 => exact fun s out => congrArg Host.Outcome.next (s.prependOutput_abort out _)
  | rsvd => exact fun s out => congrArg Host.Outcome.next (s.prependOutput_abort out _)
  | trap v => exact (dispatch_ignoresPastOutput v).afterTrapEntry
  | getc => exact routineGetc_ignoresPastOutput.afterTrapEntry
  | out => exact routineOut_ignoresPastOutput.afterTrapEntry
  | puts => exact (routineString_ignoresPastOutput putsCell).afterTrapEntry
  | inp => exact routineIn_ignoresPastOutput.afterTrapEntry
  | putsp => exact (routineString_ignoresPastOutput putspCell).afterTrapEntry
  | halt => exact routineHalt_ignoresPastOutput.afterTrapEntry

/-- Settles O57: while running, the fetch and then the meaning of the instruction commute with prepending; a machine
that does not run starts, or is refused, by the run state alone. -/
theorem pastOutputNeverReachesTheCore : Obligations.PastOutputNeverReachesTheCore := by
  intro s out
  unfold step
  rw [State.prependOutput_running, State.prependOutput_stopReason, State.prependOutput_fetch]
  by_cases hrun : s.running = true
  · rw [if_pos hrun, if_pos hrun]
    exact exec_ignoresPastOutput _ s.fetch.2 out
  · rw [if_neg hrun, if_neg hrun]
    cases s.stopReason <;> rfl

end Sys2Proof.Machine


/-! SUPPORT. Sign extension (00 R10, R11): its bits, and the number a field extends to. -/

namespace Sys2Proof

theorem signExtend_of_clear {v : Word} {n : Nat} (h : v.getLsbD (n - 1) = false) : signExtend v n = v := by
  simp [signExtend, h]

theorem signExtend_of_set {v : Word} {n : Nat} (h : v.getLsbD (n - 1) = true) :
    signExtend v n = v ||| (0xFFFF#16 <<< n) := by
  simp [signExtend, h]

/-- The mask of a set sign bit has bit `i` from `n` up. -/
theorem getLsbD_signMask (n : Nat) {i : Nat} (hi : i < 16) : (0xFFFF#16 <<< n).getLsbD i = decide (n ≤ i) := by
  have hones : 0xFFFF#16 = BitVec.allOnes 16 := rfl
  have hshift : i - n < 16 := by omega
  rw [hones, BitVec.getLsbD_shiftLeft, BitVec.getLsbD_allOnes]
  simp [hi, hshift, ← decide_not]

theorem getLsbD_signExtend_of_set {v : Word} {n : Nat} (h : v.getLsbD (n - 1) = true) {i : Nat} (hi : i < 16) :
    (signExtend v n).getLsbD i = (v.getLsbD i || decide (n ≤ i)) := by
  rw [signExtend_of_set h, BitVec.getLsbD_or, getLsbD_signMask n hi]

/-- The sign bit itself is kept, so a second extension takes the same branch and adds no bit. -/
theorem signExtend_idem (v : Word) (n : Nat) : signExtend (signExtend v n) n = signExtend v n := by
  cases h : v.getLsbD (n - 1) with
  | false => rw [signExtend_of_clear h, signExtend_of_clear h]
  | true =>
    have hkept : (signExtend v n).getLsbD (n - 1) = true := by
      rw [signExtend_of_set h, BitVec.getLsbD_or, h, Bool.true_or]
    rw [signExtend_of_set hkept, signExtend_of_set h, BitVec.or_assoc, BitVec.or_self]

/-- Settles O5, from the bits of the mask a set sign bit ORs in. -/
theorem signExtendIsExact : Obligations.SignExtendIsExact :=
  fun v n _ _ => ⟨signExtend_of_clear, fun h _ hi => getLsbD_signExtend_of_set h hi, signExtend_idem v n⟩

/-- A field of `n` bits has its sign bit set exactly when its number is at least half of 2^n. -/
theorem getLsbD_field_sign {n : Nat} (hn : 0 < n) (hn' : n ≤ 15) (f : BitVec n) :
    (f.setWidth 16).getLsbD (n - 1) = decide (2 ^ (n - 1) ≤ f.toNat) := by
  rw [BitVec.getLsbD_setWidth, ← BitVec.msb_eq_decide, BitVec.msb_eq_getLsbD_last]
  simp [show n - 1 < 16 by omega]

theorem toNat_signMask {n : Nat} (hn : n ≤ 16) : (0xFFFF#16 <<< n).toNat = 2 ^ n * (2 ^ (16 - n) - 1) := by
  interval_cases n <;> rfl

theorem toNat_signExtend_field {n : Nat} (hn : 0 < n) (hn' : n ≤ 15) (f : BitVec n) :
    (signExtend (f.setWidth 16) n).toNat =
      if f.toNat < 2 ^ (n - 1) then f.toNat else f.toNat + 65536 - 2 ^ n := by
  have hsign := getLsbD_field_sign hn hn' f
  have hnum : (f.setWidth 16).toNat = f.toNat := BitVec.toNat_setWidth_of_le (by omega)
  have hpow : 2 ^ n * 2 ^ (16 - n) = 65536 := by
    rw [← pow_add, Nat.add_sub_cancel' (by omega)]
    rfl
  have hle : 2 ^ n ≤ 2 ^ 16 := Nat.pow_le_pow_right (by decide) (by omega)
  split
  · rename_i hpos
    rw [signExtend_of_clear (by simpa [hsign] using hpos), hnum]
  · rename_i hneg
    rw [signExtend_of_set (by simpa [hsign] using hneg), BitVec.toNat_or, hnum, toNat_signMask (by omega),
      Nat.or_comm, ← Nat.two_pow_add_eq_or_of_lt f.isLt, Nat.mul_sub, hpow]
    omega

/-- Settles O6, by the one rule for every width. -/
theorem fieldsExtendToTheirSignedValue : Obligations.FieldsExtendToTheirSignedValue :=
  ⟨toNat_signExtend_field (by decide) (by decide), toNat_signExtend_field (by decide) (by decide),
    toNat_signExtend_field (by decide) (by decide), toNat_signExtend_field (by decide) (by decide)⟩

end Sys2Proof


/-! SUPPORT. Who writes the console (20 R67, 45, 46): output only grows, and only in a TRAP or an abort. -/

namespace Sys2Proof.Machine

/-- Output only grows from `s` to `t`. -/
def OutputGrows (s t : State) : Prop := ∃ out, t.console.output = s.console.output ++ out

theorem OutputGrows.of_eq {s t : State} (h : t.console.output = s.console.output) : OutputGrows s t :=
  ⟨[], by rw [h, List.append_nil]⟩

theorem routineGetc_outputGrows {s t : State} (h : routineGetc s = .next t) : OutputGrows s t := by
  unfold routineGetc at h
  split at h
  · cases h
  · rename_i hread
    cases h
    exact .of_eq (Console.read_output hread)

/-- IN writes the prompt and then the echo. -/
theorem routineIn_outputGrows {s t : State} (h : routineIn s = .next t) : OutputGrows s t := by
  unfold routineIn at h
  split at h
  · cases h
  · rename_i c con hread
    cases h
    exact ⟨Config.inPrompt ++ [c], by simp [Console.write, Console.read_output hread]⟩

theorem routineOut_outputGrows {s t : State} (h : routineOut s = .next t) : OutputGrows s t := by
  cases h
  exact ⟨_, rfl⟩

theorem routineString_outputGrows {cell : Word → List Byte} {s t : State} (h : routineString cell s = .next t) :
    OutputGrows s t := by
  rcases routineString_cases cell s with hfault | ⟨u, hnext, hprints⟩
  · rw [hfault] at h
    cases h
  · rw [hnext] at h
    cases h
    obtain ⟨_, _, _, _, _, hout, _⟩ := hprints
    exact hout

theorem routineHalt_outputGrows {s t : State} (h : routineHalt s = .next t) : OutputGrows s t := by
  cases h
  exact ⟨_, rfl⟩

theorem routineUnknown_outputGrows {reading : UnknownTrap} {s t : State} (h : routineUnknown reading s = .next t) :
    OutputGrows s t := by
  cases reading <;> cases h
  · exact .of_eq rfl
  · exact ⟨_, rfl⟩

theorem dispatch_outputGrows {v : Byte} {s t : State} (h : dispatch v s = .next t) : OutputGrows s t := by
  unfold dispatch at h
  split_ifs at h
  · exact routineGetc_outputGrows h
  · exact routineOut_outputGrows h
  · exact routineString_outputGrows h
  · exact routineIn_outputGrows h
  · exact routineString_outputGrows h
  · exact routineHalt_outputGrows h
  · exact routineUnknown_outputGrows h

@[simp] theorem State.loadInto_output (s : State) (dr : Reg) (ea : Word) :
    (s.loadInto dr ea).console.output = s.console.output := by
  simp [State.loadInto]

@[simp] theorem State.pointer_output (s : State) (off : BitVec 9) :
    (s.pointer off).2.console.output = s.console.output := by
  simp [State.pointer]

/-- Registers, pc and Memory are written, and the keyboard polled, without a ConsoleWrite. -/
theorem exec_output_of_silent {i : Instr} {s t : State} (h : exec i s = .next t) (htrap : i.traps = false)
    (hrsv : i.reserved = false) : t.console.output = s.console.output := by
  cases i with
  | addR | addI | andR | andI | not | lea | st | str | jmp | ret | jsr | jsrr =>
    cases h
    rfl
  | br nzp off =>
    cases h
    split <;> rfl
  | ld dr off =>
    cases h
    exact s.loadInto_output dr _
  | ldr dr base off =>
    cases h
    exact s.loadInto_output dr _
  | ldi dr off =>
    cases h
    rw [State.loadInto_output, State.pointer_output]
  | sti sr off =>
    cases h
    exact s.pointer_output off
  | rsv8 | rsvd => cases hrsv
  | trap | getc | out | puts | inp | putsp | halt => cases htrap

theorem exec_outputGrows {i : Instr} {s t : State} (h : exec i s = .next t) : OutputGrows s t := by
  cases i with
  | trap v => exact dispatch_outputGrows (s := s.trapEntry) h
  | getc => exact routineGetc_outputGrows (s := s.trapEntry) h
  | out => exact routineOut_outputGrows (s := s.trapEntry) h
  | puts => exact routineString_outputGrows (s := s.trapEntry) h
  | inp => exact routineIn_outputGrows (s := s.trapEntry) h
  | putsp => exact routineString_outputGrows (s := s.trapEntry) h
  | halt => exact routineHalt_outputGrows (s := s.trapEntry) h
  | rsv8 | rsvd =>
    cases h
    exact ⟨_, rfl⟩
  | _ => exact .of_eq (exec_output_of_silent h rfl rfl)

/-- Settles O55: the writers only append, and every other instruction keeps the output. -/
theorem onlyTrapsAndAbortsWriteTheConsole : Obligations.OnlyTrapsAndAbortsWriteTheConsole :=
  fun _ _ _ h => ⟨exec_outputGrows h, exec_output_of_silent h⟩

end Sys2Proof.Machine


/-! SUPPORT. The loader (00 R15, 70 R303-R305): what a run of stores and an image do. -/

namespace Sys2Proof.Machine

/-! ### Consecutive stores -/

theorem State.storeWords_eq (s : State) (a : Word) (ws : List Word) :
    s.storeWords a ws = { s with mem := (s.storeWords a ws).mem } := by
  induction ws generalizing s a with
  | nil => rfl
  | cons w ws ih => exact ih (s.memWrite a w) (a + 1)

theorem word_add_succ (a : Word) (k : Nat) : a + BitVec.ofNat 16 (k + 1) = a + 1 + BitVec.ofNat 16 k := by
  rw [BitVec.add_assoc, Nat.add_comm, BitVec.ofNat_add]
  rfl

/-- An address the stores do not reach keeps its Word. -/
theorem State.readWord_storeWords_other (s : State) {a b : Word} {ws : List Word}
    (h : ∀ k < ws.length, b ≠ a + BitVec.ofNat 16 k) : readWord (s.storeWords a ws).mem b = readWord s.mem b := by
  induction ws generalizing s a with
  | nil => rfl
  | cons w ws ih =>
    have hfirst : b ≠ a := by simpa using h 0 (by simp)
    have hrest : ∀ k < ws.length, b ≠ a + 1 + BitVec.ofNat 16 k := fun k hk => by
      rw [← word_add_succ]
      exact h (k + 1) (by simpa using hk)
    calc readWord ((s.memWrite a w).storeWords (a + 1) ws).mem b
        = readWord (s.memWrite a w).mem b := ih _ hrest
      _ = readWord s.mem b := readWord_writeWord_other _ _ hfirst

/-- No more Words than Memory holds are stored at distinct addresses, so each is read back. -/
theorem State.readWord_storeWords_at {s : State} (hm : Memory.wf s.mem) (a : Word) {ws : List Word}
    (hlen : ws.length ≤ 65536) {k : Nat} (hk : k < ws.length) :
    readWord (s.storeWords a ws).mem (a + BitVec.ofNat 16 k) = ws[k] := by
  induction ws generalizing s a k with
  | nil => cases hk
  | cons w ws ih =>
    rw [List.length_cons] at hlen hk
    have hwf : Memory.wf (s.memWrite a w).mem := writeWord_wf a w hm
    cases k with
    | zero =>
      have hapart : ∀ j < ws.length, a ≠ a + 1 + BitVec.ofNat 16 j := fun j hj heq => by
        have hnum := congrArg BitVec.toNat heq
        simp [BitVec.toNat_add] at hnum
        omega
      rw [show a + BitVec.ofNat 16 0 = a from BitVec.add_zero a]
      calc readWord ((s.memWrite a w).storeWords (a + 1) ws).mem a
          = readWord (s.memWrite a w).mem a := State.readWord_storeWords_other _ hapart
        _ = w := readWord_writeWord_same a w hm
    | succ k =>
      rw [word_add_succ]
      exact ih hwf (a + 1) (by omega) (by omega)

/-! ### Images -/

@[simp] theorem imageBytes_length (origin : Word) (payload : List Word) :
    (imageBytes origin payload).length = 2 * (payload.length + 1) := by
  simp [imageBytes]
  omega

/-- The big-endian bytes of some Words are read back as these Words. -/
theorem wordsOf_bytes (ws : List Word) :
    wordsOf (ws.flatMap fun w => [w.extractLsb' 8 8, w.extractLsb' 0 8]) = ws := by
  induction ws with
  | nil => rfl
  | cons w ws ih => exact congrArg₂ List.cons (word_of_bytes w) ih

theorem wordsOf_imageBytes (origin : Word) (payload : List Word) :
    wordsOf (imageBytes origin payload) = origin :: payload := wordsOf_bytes (origin :: payload)

theorem State.loadImage_of_started {s : State} (h : s.running = true ∨ s.stopReason ≠ .none) (image : List Byte) :
    s.loadImage image = .error .runStarted := by
  unfold State.loadImage
  rw [if_pos (by simpa using h)]

theorem State.loadImage_of_odd {s : State} (hrun : s.running = false) (hstop : s.stopReason = .none)
    {image : List Byte} (h : image.length % 2 = 1) : s.loadImage image = .error .oddLength := by
  simp [State.loadImage, hrun, hstop, h]

theorem State.loadImage_nil {s : State} (hrun : s.running = false) (hstop : s.stopReason = .none) :
    s.loadImage [] = .error .short := by
  simp [State.loadImage, hrun, hstop, wordsOf]

/-- Before the run, an image of an origin and a payload is stored if it fits and refused if it does not (70 R304). -/
theorem State.loadImage_imageBytes {s : State} (hrun : s.running = false) (hstop : s.stopReason = .none)
    (origin : Word) (payload : List Word) :
    s.loadImage (imageBytes origin payload) =
      if origin.toNat + payload.length > 65536 then .error .overflow else .ok (s.storeWords origin payload) := by
  simp [State.loadImage, hrun, hstop, wordsOf_imageBytes]

/-- Settles O58: a fitting image is stored Word by Word, and no address outside its range is among those stored. -/
theorem loadCopiesTheImage : Obligations.LoadCopiesTheImage := by
  intro s origin payload hm hrun hstop hfit
  have hlen : payload.length ≤ 65536 := by omega
  refine ⟨s.storeWords origin payload, ?_, s.storeWords_eq origin payload,
    fun k hk => State.readWord_storeWords_at hm origin hlen hk, fun a ha => ?_⟩
  · rw [State.loadImage_imageBytes hrun hstop, if_neg (by omega)]
  · refine s.readWord_storeWords_other fun k hk heq => ?_
    have haddr : a.toNat = origin.toNat + k := by
      rw [heq, BitVec.toNat_add, BitVec.toNat_ofNat]
      omega
    omega

/-- Settles O59: each test of the loader refuses by its own name. -/
theorem loadRefusesBadImages : Obligations.LoadRefusesBadImages := by
  refine fun s => ⟨State.loadImage_of_started, fun hrun hstop =>
    ⟨State.loadImage_nil hrun hstop, fun _ hodd => State.loadImage_of_odd hrun hstop hodd,
      fun origin payload hover => ?_⟩⟩
  rw [State.loadImage_imageBytes hrun hstop, if_pos hover]

end Sys2Proof.Machine


/-! SUPPORT. What every instruction leaves in the state, said once (10 R32, R36, R37, R40, R41): which register COND
follows, when pc moves, how a run stops. The invariant of every run rests on it, and so do the rules about COND and pc. -/

namespace Sys2Proof.Machine

/-! ### The effect of one instruction -/

/-- `t` has stopped by HALT or by a reserved opcode (40 R137, 46 R260). -/
def StopsLegally (t : State) : Prop :=
  t.running = false ∧ (t.stopReason = .halt ∨ t.stopReason = .abort 0x8#4 ∨ t.stopReason = .abort 0xD#4)

/-- What leads from `s` to `t` when `wrote` is the general register written last, if any, and pc is written only if
`moves`. -/
structure StepEffect (wrote : Option Reg) (moves : Bool) (s t : State) : Prop where
  flag : ∀ r, wrote = some r → t.cond = flagOf (t.reg r)
  cond : wrote = none → t.cond = s.cond
  reg : wrote = none → ∀ r, t.reg r = s.reg r
  pc : moves = false → t.pc = s.pc
  canonical : Memory.wf s.mem → Memory.wf t.mem
  runState : SameRunState s t ∨ StopsLegally t

theorem StepEffect.refl (moves : Bool) (s : State) : StepEffect none moves s s where
  flag := nofun
  cond _ := rfl
  reg _ _ := rfl
  pc _ := rfl
  canonical := id
  runState := .inl ⟨rfl, rfl⟩

theorem StopsLegally.of_sameRunState {t u : State} (hstop : StopsLegally t) (hsame : SameRunState t u) :
    StopsLegally u := by
  obtain ⟨hrun, hreason⟩ := hsame
  unfold StopsLegally
  rwa [hrun, hreason]

theorem SameRunState.trans {s t u : State} (h : SameRunState s t) (g : SameRunState t u) : SameRunState s u :=
  ⟨g.1.trans h.1, g.2.trans h.2⟩

/-- Of two registers written one after the other, COND follows the last (log 25). -/
theorem StepEffect.trans {v w : Option Reg} {m n : Bool} {s t u : State} (h : StepEffect v m s t)
    (g : StepEffect w n t u) : StepEffect (w.or v) (m || n) s u where
  flag r hr := by
    rcases Option.or_eq_some_iff.1 hr with hw | ⟨hw, hv⟩
    · exact g.flag r hw
    · rw [g.cond hw, g.reg hw, h.flag r hv]
  cond hwv := by
    obtain ⟨hw, hv⟩ := Option.or_eq_none_iff.1 hwv
    exact (g.cond hw).trans (h.cond hv)
  reg hwv r := by
    obtain ⟨hw, hv⟩ := Option.or_eq_none_iff.1 hwv
    exact (g.reg hw r).trans (h.reg hv r)
  pc hmn := by
    obtain ⟨hm, hn⟩ := Bool.or_eq_false_iff.1 hmn
    exact (g.pc hn).trans (h.pc hm)
  canonical hs := g.canonical (h.canonical hs)
  runState := by
    rcases g.runState with hsame | hstop
    · exact h.runState.imp (·.trans hsame) (·.of_sameRunState hsame)
    · exact .inr hstop

/-! ### The effects of the state operations -/

theorem writeReg_effect (s : State) (d : Reg) (v : Word) : StepEffect (some d) false s (s.writeReg d v) where
  flag r hr := by
    obtain rfl := Option.some.inj hr
    rw [State.writeReg_cond, State.writeReg_reg_same, condOf_eq_flagOf]
  cond := nofun
  reg := nofun
  pc _ := rfl
  canonical := id
  runState := .inl ⟨rfl, rfl⟩

theorem trapEntry_effect (s : State) : StepEffect (some .r7) false s s.trapEntry := writeReg_effect s .r7 s.pc

theorem setPc_effect (s : State) (target : Word) : StepEffect none true s (s.setPc target) :=
  { StepEffect.refl true s with pc := nofun }

theorem console_effect (s : State) (con : Console) : StepEffect none false s { s with console := con } :=
  { StepEffect.refl false s with }

theorem memWrite_effect (s : State) (a v : Word) : StepEffect none false s (s.memWrite a v) :=
  { StepEffect.refl false s with canonical := writeWord_wf a v }

theorem PrintsCells.effect {s t : State} (h : PrintsCells s t) : StepEffect none false s t := by
  obtain ⟨hregs, hpc, hcond, hrun, _, _, hwf⟩ := h
  exact ⟨nofun, fun _ => hcond, fun _ r => congrArg (Regs.get · r) hregs, fun _ => hpc, hwf, .inl hrun⟩

theorem afterRead_effect (s : State) (a : Word) : StepEffect none false s (s.afterRead a) :=
  (afterRead_printsCells s a).effect

theorem stop_effect (s : State) {why : StopReason} (h : why = .halt ∨ why = .abort 0x8#4 ∨ why = .abort 0xD#4) :
    StepEffect none false s (s.stop why) :=
  { StepEffect.refl false s with runState := .inr ⟨rfl, h⟩ }

theorem abort_effect (s : State) {op : Opcode} (h : op = 0x8#4 ∨ op = 0xD#4) :
    StepEffect none false s (s.abort op) :=
  (console_effect s _).trans (stop_effect _ (.inr (h.imp (congrArg _) (congrArg _))))

theorem loadInto_effect (s : State) (dr : Reg) (ea : Word) : StepEffect (some dr) false s (s.loadInto dr ea) :=
  (afterRead_effect s ea).trans (writeReg_effect _ dr _)

theorem fetch_effect (s : State) : StepEffect none true s s.fetch.2 :=
  (afterRead_effect s s.pc).trans (setPc_effect _ _)

/-! ### The effects of the trap routines -/

theorem routineGetc_effect {s t : State} (h : routineGetc s = .next t) : StepEffect (some .r0) false s t := by
  unfold routineGetc at h
  split at h
  · cases h
  · cases h
    exact (console_effect s _).trans (writeReg_effect _ .r0 _)

theorem routineIn_effect {s t : State} (h : routineIn s = .next t) : StepEffect (some .r0) false s t := by
  unfold routineIn at h
  split at h
  · cases h
  · cases h
    exact (console_effect s _).trans (writeReg_effect _ .r0 _)

theorem routineOut_effect {s t : State} (h : routineOut s = .next t) : StepEffect none false s t := by
  cases h
  exact console_effect s _

theorem routineString_effect {cell : Word → List Byte} {s t : State} (h : routineString cell s = .next t) :
    StepEffect none false s t := by
  rcases routineString_cases cell s with hfault | ⟨u, hnext, hprints⟩
  · rw [hfault] at h
    cases h
  · rw [hnext] at h
    cases h
    exact hprints.effect

theorem routineHalt_effect {s t : State} (h : routineHalt s = .next t) : StepEffect none false s t := by
  cases h
  exact (console_effect s _).trans (stop_effect _ (.inl rfl))

/-- A selector with no routine does nothing more than trap entry: UNKNOWN_TRAP is NoOp (log 10). -/
theorem routineUnknown_effect {s t : State} (h : routineUnknown Config.unknownTrap s = .next t) :
    StepEffect none false s t := by
  cases h
  exact .refl false s

/-- A TRAP writes R7 first, and then its routine R0 or nothing (45 R230, R232, R235). -/
theorem execTrap_effect {v : Byte} {s t : State} (h : execTrap v s = .next t) :
    StepEffect (some (trapWritesLast v)) false s t := by
  have hentry := trapEntry_effect s
  unfold execTrap dispatch at h
  split_ifs at h with hgetc hout hputs hin hputsp hhalt
  · subst hgetc
    exact hentry.trans (routineGetc_effect h)
  · subst hout
    exact hentry.trans (routineOut_effect h)
  · subst hputs
    exact hentry.trans (routineString_effect h)
  · subst hin
    exact hentry.trans (routineIn_effect h)
  · subst hputsp
    exact hentry.trans (routineString_effect h)
  · subst hhalt
    exact hentry.trans (routineHalt_effect h)
  · have hlast : trapWritesLast v = .r7 := if_neg (not_or.2 ⟨hgetc, hin⟩)
    rw [hlast]
    exact hentry.trans (routineUnknown_effect h)

/-! ### The effect of every instruction, and of a step -/

theorem exec_effect {i : Instr} {s t : State} (h : exec i s = .next t) :
    StepEffect i.writesLast i.transfers s t := by
  cases i with
  | addR | addI | andR | andI | not | lea =>
    cases h
    exact writeReg_effect s _ _
  | ld dr off =>
    cases h
    exact loadInto_effect s dr _
  | ldr dr base off =>
    cases h
    exact loadInto_effect s dr _
  | ldi dr off =>
    cases h
    exact (afterRead_effect s _).trans (loadInto_effect _ dr _)
  | st | str =>
    cases h
    exact memWrite_effect s _ _
  | sti sr off =>
    cases h
    exact (afterRead_effect s _).trans (memWrite_effect _ _ _)
  | br nzp off =>
    cases h
    split
    · exact setPc_effect s _
    · exact .refl true s
  | jmp | ret =>
    cases h
    exact setPc_effect s _
  | jsr | jsrr =>
    cases h
    exact (writeReg_effect s .r7 s.pc).trans (setPc_effect _ _)
  | rsv8 =>
    cases h
    exact abort_effect s (.inl rfl)
  | rsvd =>
    cases h
    exact abort_effect s (.inr rfl)
  | trap v => exact execTrap_effect h
  | getc => exact execTrap_effect (v := 0x20#8) h
  | out => exact execTrap_effect (v := 0x21#8) h
  | puts => exact execTrap_effect (v := 0x22#8) h
  | inp => exact execTrap_effect (v := 0x23#8) h
  | putsp => exact execTrap_effect (v := 0x24#8) h
  | halt => exact execTrap_effect (v := 0x25#8) h

/-- A step of a running machine has the effect of its fetch and then of its instruction; any other starts the run. -/
theorem step_effect {s t : State} (h : step s = .next t) :
    (s.running = true ∧ StepEffect (decode s.fetch.1).writesLast true s t) ∨
    (s.running = false ∧ s.stopReason = .none ∧ t = s.startRun) := by
  refine (step_next h).imp_left fun ⟨hrun, hexec⟩ => ⟨hrun, ?_⟩
  simpa using (fetch_effect s).trans (exec_effect hexec)

/-- Settles O9, from the effect of every instruction. -/
theorem exactlyTheRegisterWritersSetCond : Obligations.ExactlyTheRegisterWritersSetCond :=
  fun _ _ _ h => ⟨(exec_effect h).flag, (exec_effect h).cond⟩

/-- Settles O53, from the effect of every instruction. -/
theorem onlyTransfersWriteThePc : Obligations.OnlyTransfersWriteThePc :=
  fun _ _ _ h => (exec_effect h).pc

end Sys2Proof.Machine


/-! SUPPORT. COND holds one flag, and the invariant of every run (10 R36, R40, R41, 20 R60). -/

namespace Sys2Proof.Machine

section
variable {wrote : Option Reg} {moves : Bool} {s t : State}

/-! ### COND -/

theorem StepEffect.condOneFlag_of_written (h : StepEffect wrote moves s t) (hw : wrote ≠ none) : CondOneFlag t := by
  obtain ⟨r, hr⟩ := Option.ne_none_iff_exists'.1 hw
  unfold CondOneFlag
  rw [h.flag r hr]
  exact flagOf_oneFlag _

theorem StepEffect.condOneFlag_of_changed (h : StepEffect wrote moves s t) {r : Reg} (hr : t.reg r ≠ s.reg r) :
    CondOneFlag t :=
  h.condOneFlag_of_written fun hw => hr (h.reg hw r)

theorem StepEffect.condOneFlag (h : StepEffect wrote moves s t) (hs : CondOneFlag s) : CondOneFlag t := by
  cases wrote with
  | some r => exact h.condOneFlag_of_written nofun
  | none =>
    unfold CondOneFlag
    rwa [h.cond rfl]

theorem StepEffect.condFollowsARegister (h : StepEffect wrote moves s t) (hs : CondFollowsARegister s) :
    CondFollowsARegister t := by
  cases wrote with
  | some r => exact .inr ⟨r, h.flag r rfl⟩
  | none => exact hs.imp (h.cond rfl).trans fun ⟨r, hr⟩ => ⟨r, by rw [h.cond rfl, h.reg rfl, hr]⟩

/-! ### The run state -/

theorem StopsLegally.runStateLegal (h : StopsLegally t) : RunStateLegal t := fun hrun => by
  rw [h.1] at hrun
  cases hrun

theorem StopsLegally.abortLegal (h : StopsLegally t) : AbortLegal t := by
  intro op hop
  obtain ⟨_, hreason⟩ := h
  simpa [hop] using hreason

theorem StepEffect.runStateLegal (h : StepEffect wrote moves s t) (hs : RunStateLegal s) : RunStateLegal t := by
  rcases h.runState with ⟨hrun, hreason⟩ | hstop
  · unfold RunStateLegal
    rwa [hrun, hreason]
  · exact hstop.runStateLegal

theorem StepEffect.abortLegal (h : StepEffect wrote moves s t) (hs : AbortLegal s) : AbortLegal t := by
  rcases h.runState with ⟨_, hreason⟩ | hstop
  · unfold AbortLegal
    rwa [hreason]
  · exact hstop.abortLegal

/-! ### The invariant -/

theorem StepEffect.invariant (h : StepEffect wrote moves s t) (hs : Invariant s) : Invariant t := by
  obtain ⟨hmem, hcond, hrun, habort⟩ := hs
  exact ⟨h.canonical hmem, h.condFollowsARegister hcond, h.runStateLegal hrun, h.abortLegal habort⟩

theorem startRun_invariant (hreason : s.stopReason = .none) (hs : Invariant s) : Invariant s.startRun := by
  obtain ⟨hmem, hcond, _, habort⟩ := hs
  exact ⟨hmem, hcond, fun _ => hreason, habort⟩

theorem step_keeps_invariant (h : step s = .next t) (hs : Invariant s) : Invariant t := by
  rcases step_effect h with ⟨_, heffect⟩ | ⟨_, hreason, rfl⟩
  · exact heffect.invariant hs
  · exact startRun_invariant hreason hs

/-- What every step keeps, every run keeps. -/
theorem Reaches.keeps {P : State → Prop} (hstep : ∀ {s t}, step s = .next t → P s → P t) (h : Reaches s t)
    (hs : P s) : P t := by
  induction h with
  | refl => exact hs
  | tail _ hnext ih => exact hstep hnext ih

end

/-- Settles O10: an instruction leaves the flag of the register it writes, or COND and the registers as they were; the
start of the run touches neither. -/
theorem stepKeepsExactlyOneFlag : Obligations.StepKeepsExactlyOneFlag := by
  intro s t h
  rcases step_effect h with ⟨_, heffect⟩ | ⟨hidle, _, rfl⟩
  · exact ⟨heffect.condOneFlag, fun _ => heffect.condOneFlag_of_written,
      fun ⟨_, hr⟩ => heffect.condOneFlag_of_changed hr⟩
  · exact ⟨id, fun hrun => absurd hrun (by simp [hidle]), fun ⟨r, hr⟩ => absurd (s.startRun_reg r) hr⟩

/-- Settles O51: every step keeps the invariant. -/
theorem everyRunKeepsTheInvariant : Obligations.EveryRunKeepsTheInvariant :=
  fun _ _ hs hreach => hreach.keeps step_keeps_invariant hs

/-- Settles O46: a stop reason is HALT or an abort, and a step refuses both. -/
theorem stoppedMachineTakesNoStep : Obligations.StoppedMachineTakesNoStep := by
  intro s hrun hreason
  simp only [step, hrun]
  cases hstop : s.stopReason with
  | none => exact absurd hstop hreason
  | halt | abort => rfl

/-! ### Reset (10 R43-R47) -/

/-- Settles O48: fresh Memory lists no byte, and run() only sets pc and running. -/
theorem resetIsStoppedWithZeroMemory : Obligations.ResetIsStoppedWithZeroMemory :=
  ⟨rfl, rfl, readWord_nil, State.startRun_running _⟩

/-- Settles O49: each register holds GPR_RESET and COND holds COND_RESET. -/
theorem resetRegistersHoldTheDefaults : Obligations.ResetRegistersHoldTheDefaults := by
  refine ⟨fun r => ?_, rfl⟩
  cases r <;> rfl

/-- Settles O50: COND is still COND_RESET, and a machine that has not run has no stop reason to be wrong. -/
theorem resetMeetsTheInvariant : Obligations.ResetMeetsTheInvariant :=
  ⟨reset_memory_wf, .inl rfl, fun _ => rfl, nofun⟩

end Sys2Proof.Machine


/-! SUPPORT. What a branch mask finds in COND (10 R35, 30 R98, 41 R150): one flag, the sign of the value last written. -/

namespace Sys2Proof.Machine

theorem toInt_neg_iff_getLsbD (v : Word) : v.toInt < 0 ↔ v.getLsbD 15 = true := by
  have hsign : v.getLsbD 15 = decide (v.toInt < 0) := v.msb_eq_getLsbD_last.symm.trans v.msb_eq_toInt
  rw [hsign, decide_eq_true_iff]

/-- The flag of a value is the one of its sign. -/
theorem condOf_cases (v : Word) :
    (v.toInt < 0 ∧ condOf v = Config.condN) ∨ (v.toInt = 0 ∧ condOf v = Config.condZ) ∨
    (v.toInt > 0 ∧ condOf v = Config.condP) := by
  have hneg := toInt_neg_iff_getLsbD v
  unfold condOf
  split_ifs with hzero hsign
  · exact .inr (.inl ⟨by rw [hzero]; rfl, rfl⟩)
  · exact .inl ⟨hneg.2 hsign, rfl⟩
  · have hnotneg : ¬ v.toInt < 0 := fun h => hsign (hneg.1 h)
    have hnotzero : v.toInt ≠ 0 := fun h => hzero (BitVec.eq_of_toInt_eq h)
    exact .inr (.inr ⟨by omega, rfl⟩)

/-- A mask meets a COND of one bit when it has that bit. -/
theorem mask_meets_bit (nzp : BitVec 3) {k : Nat} (hk : k < 3) :
    nzp.setWidth 16 &&& BitVec.twoPow 16 k ≠ 0x0000#16 ↔ nzp.getLsbD k = true := by
  have hbit : BitVec.twoPow 16 k ≠ 0x0000#16 := by interval_cases k <;> decide
  rw [BitVec.and_twoPow, BitVec.getLsbD_setWidth]
  cases nzp.getLsbD k <;> simp [hbit, show k < 16 by omega]

theorem mask_meets_condOf (nzp : BitVec 3) (v : Word) :
    nzp.setWidth 16 &&& condOf v ≠ 0x0000#16 ↔
      (nzp.getLsbD 2 = true ∧ v.toInt < 0) ∨ (nzp.getLsbD 1 = true ∧ v.toInt = 0) ∨
        (nzp.getLsbD 0 = true ∧ v.toInt > 0) := by
  have hN : nzp.setWidth 16 &&& Config.condN ≠ 0x0000#16 ↔ nzp.getLsbD 2 = true :=
    mask_meets_bit nzp (k := 2) (by decide)
  have hZ : nzp.setWidth 16 &&& Config.condZ ≠ 0x0000#16 ↔ nzp.getLsbD 1 = true :=
    mask_meets_bit nzp (k := 1) (by decide)
  have hP : nzp.setWidth 16 &&& Config.condP ≠ 0x0000#16 ↔ nzp.getLsbD 0 = true :=
    mask_meets_bit nzp (k := 0) (by decide)
  rcases condOf_cases v with ⟨hv, hcond⟩ | ⟨hv, hcond⟩ | ⟨hv, hcond⟩ <;> rw [hcond]
  · simp [hN, hv, hv.ne, hv.not_gt]
  · simp [hZ, hv]
  · simp [hP, hv, hv.ne', hv.not_gt]

/-- Settles O8: the mask meets COND exactly at the sign of the value written. -/
theorem branchTestsTheSignOfTheLastWrite : Obligations.BranchTestsTheSignOfTheLastWrite := by
  refine fun s d v nzp off => ⟨_, rfl, fun htaken => ?_, fun hnot => ?_⟩
  · rw [← mask_meets_condOf] at htaken
    rw [State.writeReg_cond, if_pos htaken]
    rfl
  · rw [← mask_meets_condOf] at hnot
    rw [State.writeReg_cond, if_neg hnot]
    rfl

end Sys2Proof.Machine


/-! SUPPORT. Memory (20): every step keeps its canonical form, and only a store or a poll writes a Word. -/

namespace Sys2Proof.Machine

/-- Settles O20, from the effect of every step. -/
theorem stepKeepsMemoryCanonical : Obligations.StepKeepsMemoryCanonical := by
  intro s t h hm
  rcases step_effect h with ⟨_, heffect⟩ | ⟨_, _, rfl⟩
  · exact heffect.canonical hm
  · exact hm

/-- Settles O16, by what a store amounts to in canonical Memory. -/
theorem writeStoresTheWordAndNothingElse : Obligations.WriteStoresTheWordAndNothingElse :=
  fun _ a v hm => memWrite_storesWord hm a v

/-- Settles O17: no other address polls. -/
theorem readElsewhereHasNoSideEffect : Obligations.ReadElsewhereHasNoSideEffect :=
  fun s _ ha => s.memRead_other ha

/-! ### What leaves ordinary Memory alone -/

theorem SameOrdinaryMemory.of_mem_eq {s t : State} (h : t.mem = s.mem) : SameOrdinaryMemory s t :=
  fun a _ _ => congrArg (readWord · a) h

theorem SameOrdinaryMemory.trans {s t u : State} (h : SameOrdinaryMemory s t) (g : SameOrdinaryMemory t u) :
    SameOrdinaryMemory s u :=
  fun a hkbsr hkbdr => (g a hkbsr hkbdr).trans (h a hkbsr hkbdr)

theorem PrintsCells.sameOrdinaryMemory {s t : State} (h : PrintsCells s t) : SameOrdinaryMemory s t := by
  obtain ⟨_, _, _, _, hmem, _, _⟩ := h
  exact hmem

theorem afterRead_sameOrdinaryMemory (s : State) (a : Word) : SameOrdinaryMemory s (s.afterRead a) :=
  (afterRead_printsCells s a).sameOrdinaryMemory

theorem routineGetc_mem {s t : State} (h : routineGetc s = .next t) : t.mem = s.mem := by
  unfold routineGetc at h
  split at h
  · cases h
  · cases h
    rfl

theorem routineIn_mem {s t : State} (h : routineIn s = .next t) : t.mem = s.mem := by
  unfold routineIn at h
  split at h
  · cases h
  · cases h
    rfl

theorem routineUnknown_mem {reading : UnknownTrap} {s t : State} (h : routineUnknown reading s = .next t) :
    t.mem = s.mem := by
  cases reading <;> cases h <;> rfl

theorem routineString_sameOrdinaryMemory {cell : Word → List Byte} {s t : State}
    (h : routineString cell s = .next t) : SameOrdinaryMemory s t := by
  rcases routineString_cases cell s with hfault | ⟨u, hnext, hprints⟩
  · rw [hfault] at h
    cases h
  · rw [hnext] at h
    cases h
    exact hprints.sameOrdinaryMemory

/-- Of the trap routines, PUTS and PUTSP alone read Memory and may poll (45 R234, R236). -/
theorem execTrap_sameOrdinaryMemory {v : Byte} {s t : State} (h : execTrap v s = .next t) :
    SameOrdinaryMemory s t := by
  refine SameOrdinaryMemory.trans (t := s.trapEntry) (.of_mem_eq rfl) ?_
  unfold execTrap dispatch at h
  split_ifs at h
  · exact .of_mem_eq (routineGetc_mem h)
  · cases h
    exact .of_mem_eq rfl
  · exact routineString_sameOrdinaryMemory h
  · exact .of_mem_eq (routineIn_mem h)
  · exact routineString_sameOrdinaryMemory h
  · cases h
    exact .of_mem_eq rfl
  · exact .of_mem_eq (routineUnknown_mem h)

/-- Settles O54: an instruction other than a store writes no Word but by the polls of its reads. -/
theorem onlyStoresWriteOrdinaryMemory : Obligations.OnlyStoresWriteOrdinaryMemory := by
  intro i s t h hstores
  cases i with
  | st | sti | str => cases hstores
  | addR | addI | andR | andI | not | lea | jmp | ret | jsr | jsrr | rsv8 | rsvd =>
    cases h
    exact .of_mem_eq rfl
  | br nzp off =>
    cases h
    exact .of_mem_eq (by split <;> rfl)
  | ld dr off =>
    cases h
    exact afterRead_sameOrdinaryMemory s _
  | ldr dr base off =>
    cases h
    exact afterRead_sameOrdinaryMemory s _
  | ldi dr off =>
    cases h
    exact (afterRead_sameOrdinaryMemory s _).trans (afterRead_sameOrdinaryMemory (s.pointer off).2 _)
  | trap v => exact execTrap_sameOrdinaryMemory h
  | getc => exact execTrap_sameOrdinaryMemory (v := 0x20#8) h
  | out => exact execTrap_sameOrdinaryMemory (v := 0x21#8) h
  | puts => exact execTrap_sameOrdinaryMemory (v := 0x22#8) h
  | inp => exact execTrap_sameOrdinaryMemory (v := 0x23#8) h
  | putsp => exact execTrap_sameOrdinaryMemory (v := 0x24#8) h
  | halt => exact execTrap_sameOrdinaryMemory (v := 0x25#8) h

end Sys2Proof.Machine


/-! SUPPORT. Reads of KBSR_ADDR (20 R62, R65, R66): what the poll leaves in the two keyboard words, for a program's
read, for the fetch and for a string. -/

namespace Sys2Proof.Machine

/-! ### What a poll leaves -/

/-- A poll that took the character `c`. -/
theorem State.afterRead_kbsr_some {s : State} {c : Byte} {con : Console} (hm : Memory.wf s.mem)
    (hpoll : s.console.poll = (some c, con)) :
    readWord (s.afterRead Config.kbsrAddr).mem Config.kbsrAddr = Config.kbReady ∧
    readWord (s.afterRead Config.kbsrAddr).mem Config.kbdrAddr = c.setWidth 16 ∧
    (s.afterRead Config.kbsrAddr).console = con := by
  rw [State.afterRead_kbsr]
  rcases s.pollKeyboard_cases with ⟨c', con', hpoll', e⟩ | ⟨con', hpoll', _⟩
  · obtain ⟨⟨⟩, rfl⟩ := Prod.mk.inj (hpoll.symm.trans hpoll')
    rw [e]
    refine ⟨?_, readWord_writeWord_same _ _ (writeWord_wf _ _ hm), rfl⟩
    exact (readWord_writeWord_other _ _ kbdr_ne_kbsr.symm).trans (readWord_writeWord_same _ _ hm)
  · cases hpoll.symm.trans hpoll'

/-- A poll that took nothing. -/
theorem State.afterRead_kbsr_none {s : State} {con : Console} (hm : Memory.wf s.mem)
    (hpoll : s.console.poll = (none, con)) :
    readWord (s.afterRead Config.kbsrAddr).mem Config.kbsrAddr = 0x0000#16 ∧
    (∀ a, a ≠ Config.kbsrAddr → readWord (s.afterRead Config.kbsrAddr).mem a = readWord s.mem a) ∧
    (s.afterRead Config.kbsrAddr).console = con := by
  rw [State.afterRead_kbsr]
  rcases s.pollKeyboard_cases with ⟨c', con', hpoll', _⟩ | ⟨con', hpoll', e⟩
  · cases hpoll.symm.trans hpoll'
  · obtain ⟨_, rfl⟩ := Prod.mk.inj (hpoll.symm.trans hpoll')
    rw [e]
    exact ⟨readWord_writeWord_same _ _ hm, fun a ha => readWord_writeWord_other _ _ ha, rfl⟩

theorem State.memRead_kbsr_values {s : State} (hm : Memory.wf s.mem) :
    (s.memRead Config.kbsrAddr).1 = Config.kbReady ∨ (s.memRead Config.kbsrAddr).1 = 0x0000#16 := by
  rcases hpoll : s.console.poll with ⟨_ | c, con⟩
  · exact .inr (State.afterRead_kbsr_none hm hpoll).1
  · exact .inl (State.afterRead_kbsr_some hm hpoll).1

/-! ### A program's read -/

/-- Settles O18: the poll's answer gives the value read, and every read has the frame. -/
theorem statusReadPollsTheKeyboard : Obligations.StatusReadPollsTheKeyboard := by
  intro s hm
  refine ⟨fun ps c cs hp hi => ?_, fun ps hp => ?_, fun hi he => ?_, State.memRead_kbsr_values hm, rfl,
    afterRead_sameOrdinaryMemory s _, s.afterRead_reg _, s.afterRead_pc _, s.afterRead_cond _,
    ⟨s.afterRead_running _, s.afterRead_stopReason _⟩, s.afterRead_output _⟩
  · obtain ⟨hkbsr, hkbdr, hcon⟩ := State.afterRead_kbsr_some hm (Console.poll_yes hp hi)
    exact ⟨hkbsr, hkbsr, hkbdr, hcon⟩
  · obtain ⟨hkbsr, hother, hcon⟩ := State.afterRead_kbsr_none hm (Console.poll_no hp)
    exact ⟨hkbsr, hkbsr, hother _ kbdr_ne_kbsr, hcon⟩
  · exact State.memRead_kbsr_no hm (Console.poll_ended hi he)

/-- Settles O19: the first read leaves the second answer and character for the second read. -/
theorem twoStatusReadsConsumeTwoCharacters : Obligations.TwoStatusReadsConsumeTwoCharacters := by
  intro s ps a b cs hm hp hi
  obtain ⟨_, _, hcon⟩ := State.afterRead_kbsr_some hm (Console.poll_yes hp hi)
  have hpoll : (s.afterRead Config.kbsrAddr).console.poll = (some b, { s.console with polls := ps, input := cs }) := by
    rw [hcon]
    exact Console.poll_yes rfl rfl
  obtain ⟨_, hkbdr, hcon'⟩ := State.afterRead_kbsr_some (State.afterRead_wf _ hm) hpoll
  exact ⟨hkbdr, hcon'⟩

/-! ### The fetch -/

theorem step_of_running {s : State} (h : s.running = true) : step s = exec (decode s.fetch.1) s.fetch.2 := if_pos h

theorem State.fetch_sameOrdinaryMemory (s : State) : SameOrdinaryMemory s s.fetch.2 :=
  afterRead_sameOrdinaryMemory s s.pc

theorem State.fetch_kbsr {s : State} (h : s.pc = Config.kbsrAddr) :
    s.fetch = (readWord (s.afterRead Config.kbsrAddr).mem Config.kbsrAddr,
      (s.afterRead Config.kbsrAddr).setPc (s.pc + 1)) := by
  unfold State.fetch
  rw [h]
  rfl

/-- KB_READY is a word of the reserved opcode 0x8 (log 13, 17). -/
theorem decode_kbReady : decode Config.kbReady = .rsv8 := by decide

/-- The cleared status word is a BR with an empty mask (30 R107). -/
theorem decode_zero : decode 0x0000#16 = .br 0#3 0#9 := by decide

theorem exec_br_never (off : BitVec 9) (s : State) : exec (.br 0#3 off) s = .next s := by
  simp [exec, execBr]

/-- Settles O44: KB_READY runs as the reserved opcode 0x8, and 0 as a BR never taken. -/
theorem fetchFromTheStatusWord : Obligations.FetchFromTheStatusWord := by
  intro s hm hrun hpc
  have hfetch := State.fetch_kbsr hpc
  refine ⟨fun ps c cs hp hi => ?_, fun ps hp => ?_⟩
  · obtain ⟨hkbsr, hkbdr, hcon⟩ := State.afterRead_kbsr_some hm (Console.poll_yes hp hi)
    have hstep : step s = .next (s.fetch.2.abort 0x8#4) := by
      rw [step_of_running hrun, hfetch, hkbsr, decode_kbReady]
      rfl
    refine ⟨_, hstep, rfl, rfl, rfl, s.fetch_cond, s.fetch_reg, ?_, ?_, s.fetch_sameOrdinaryMemory, ?_⟩
    · rw [hfetch]
      exact hkbsr
    · rw [hfetch]
      exact hkbdr
    · rw [hfetch, State.abort_console, State.setPc_console, hcon]
  · obtain ⟨hkbsr, hother, hcon⟩ := State.afterRead_kbsr_none hm (Console.poll_no hp)
    have hstep : step s = .next s.fetch.2 := by
      rw [step_of_running hrun, hfetch, hkbsr, decode_zero, exec_br_never]
    refine ⟨_, hstep, ⟨s.fetch_running, s.fetch_stopReason⟩, rfl, s.fetch_cond, s.fetch_reg, ?_, ?_,
      s.fetch_sameOrdinaryMemory, ?_⟩
    · rw [hfetch]
      exact hkbsr
    · rw [hfetch]
      exact hother _ kbdr_ne_kbsr
    · rw [hfetch]
      exact hcon

/-- The step after a store to `pc`, outside KBSR_ADDR, runs the word stored. -/
theorem step_memWrite_pc {s : State} (v : Word) (hm : Memory.wf s.mem) (hrun : s.running = true)
    (hpc : s.pc ≠ Config.kbsrAddr) :
    step (s.memWrite s.pc v) = exec (decode v) { s.memWrite s.pc v with pc := s.pc + 1 } := by
  have hword : readWord (s.memWrite s.pc v).mem s.pc = v := readWord_writeWord_same _ _ hm
  have hfetch : (s.memWrite s.pc v).fetch = (v, { s.memWrite s.pc v with pc := s.pc + 1 }) := by
    rw [(s.memWrite s.pc v).fetch_other hpc, State.memWrite_pc, hword]
  rw [step_of_running (s := s.memWrite s.pc v) hrun, hfetch]

/-- Settles O21: both stores are a MemWrite to `pc`. -/
theorem storeIsSeenByTheNextFetch : Obligations.StoreIsSeenByTheNextFetch := by
  rintro s t i r hm hrun hpc (⟨off, rfl, haddr⟩ | ⟨b, off, rfl, haddr⟩) h
  · obtain rfl : s.memWrite (s.pc + sext9 off) (s.reg r) = t := Host.Outcome.next.inj h
    rw [haddr]
    exact step_memWrite_pc _ hm hrun hpc
  · obtain rfl : s.memWrite (s.reg b + sext6 off) (s.reg r) = t := Host.Outcome.next.inj h
    rw [haddr]
    exact step_memWrite_pc _ hm hrun hpc

/-! ### A string at KBSR_ADDR -/

/-- A string whose first cell reads 0 is empty: the routine does that read and no more. -/
theorem routineString_empty (cell : Word → List Byte) {s : State} (h : (s.memRead (s.reg .r0)).1 = 0x0000#16) :
    routineString cell s = .next (s.afterRead (s.reg .r0)) := by
  obtain ⟨n, hfuel⟩ : ∃ n, stringFuel s = n + 1 := ⟨stringFuel s - 1, by have := le_stringFuel s; omega⟩
  unfold routineString
  rw [hfuel, stringLoop, if_pos h, State.memRead_snd]

/-- Settles O38: trap entry, then the one poll that finds nothing. -/
theorem stringEndsAtTheStatusWordWhenNoKeyIsAvailable :
    Obligations.StringEndsAtTheStatusWordWhenNoKeyIsAvailable := by
  intro s ps hm hr0 hp i hi
  have hr0' : s.trapEntry.reg .r0 = Config.kbsrAddr := hr0
  obtain ⟨hkbsr, hother, hcon⟩ := State.afterRead_kbsr_none (s := s.trapEntry) hm (Console.poll_no hp)
  have hloop (cell : Word → List Byte) :
      routineString cell s.trapEntry = .next (s.trapEntry.afterRead Config.kbsrAddr) := by
    rw [← hr0']
    exact routineString_empty cell (by rw [hr0']; exact hkbsr)
  have hexec : exec i s = .next (s.trapEntry.afterRead Config.kbsrAddr) := by
    rcases hi with rfl | rfl
    · exact hloop putsCell
    · exact hloop putspCell
  refine ⟨_, hexec, hcon, hkbsr, hother, ?_, fun r hr => ?_, ?_, State.afterRead_pc _ _,
    State.afterRead_running _ _, State.afterRead_stopReason _ _⟩
  · rw [State.afterRead_reg, State.trapEntry_reg_r7]
  · rw [State.afterRead_reg, State.trapEntry_reg, if_neg hr]
  · rw [State.afterRead_cond, State.trapEntry_cond, condOf_eq_flagOf]

end Sys2Proof.Machine


/-! SUPPORT. The encoder and the decoder undo each other (30 R101, R103, R104): a word is the word of its own fields,
with or without its ignored bits, and two words that agree on a field's bits hold the same field. -/

namespace Sys2Proof

/-! ### The two opcodes with alias rows (30 R109) -/

theorem decodeJmp_of_ne_r7 {base : Reg} (h : base ≠ .r7) : decodeJmp base = .jmp base := if_neg h

theorem decodeTrap_of_unnamed {v : Byte} (h : v ∉ namedSelectors) : decodeTrap v = .trap v := by
  simp only [namedSelectors, List.mem_cons, List.not_mem_nil, or_false, not_or] at h
  simp [decodeTrap, h]

theorem jmp_wellFormed_iff (base : Reg) : (Instr.jmp base).wellFormed = true ↔ base ≠ .r7 := by
  simp [Instr.wellFormed]

theorem trap_wellFormed_iff (v : Byte) : (Instr.trap v).wellFormed = true ↔ v ∉ namedSelectors := by
  simp [Instr.wellFormed]

/-- Whichever row opcode 0xC decodes to, its word and its read bits are those of `jmp`. -/
theorem decodeJmp_row (base : Reg) :
    (decodeJmp base).wellFormed = true ∧ encode (decodeJmp base) = pack6 0xC#4 0#3 base.bits 0#6 ∧
    (decodeJmp base).readBits = 0xF1C0#16 := by
  by_cases h : base = .r7
  · rw [h]
    decide
  · rw [decodeJmp_of_ne_r7 h]
    exact ⟨(jmp_wellFormed_iff base).mpr h, rfl, rfl⟩

/-- Whichever row opcode 0xF decodes to, its word and its read bits are those of `trap`. -/
theorem decodeTrap_row (v : Byte) :
    (decodeTrap v).wellFormed = true ∧ encode (decodeTrap v) = pack8 0xF#4 v ∧
    (decodeTrap v).readBits = 0xF0FF#16 := by
  by_cases h : v ∈ namedSelectors
  · simp only [namedSelectors, List.mem_cons, List.not_mem_nil, or_false] at h
    rcases h with rfl | rfl | rfl | rfl | rfl | rfl <;> exact ⟨rfl, rfl, rfl⟩
  · rw [decodeTrap_of_unnamed h]
    exact ⟨(trap_wellFormed_iff v).mpr h, rfl, rfl⟩

/-! ### From an instruction to its word and back -/

/-- Settles O1: each row's layout gives back its opcode and its fields; an alias is one word. -/
theorem decodeOfEncodeIsTheInstruction : Obligations.DecodeOfEncodeIsTheInstruction := by
  intro i hi
  cases i with
  | br nzp off => simp [encode, decode_op0]
  | addR d a b => simp [encode, decode_op1]
  | addI d a f => simp [encode, decode_op1]
  | ld d off => simp [encode, decode_op2]
  | st r off => simp [encode, decode_op3]
  | jsr off => simp [encode, decode_op4]
  | jsrr b => simp [encode, decode_op4, longOf_pack6]
  | andR d a b => simp [encode, decode_op5]
  | andI d a f => simp [encode, decode_op5]
  | ldr d b off => simp [encode, decode_op6]
  | str r b off => simp [encode, decode_op7]
  | not d r => simp [encode, decode_op9]
  | ldi d off => simp [encode, decode_opA]
  | sti r off => simp [encode, decode_opB]
  | jmp b => simp [encode, decode_opC, decodeJmp_of_ne_r7 ((jmp_wellFormed_iff b).mp hi)]
  | lea d off => simp [encode, decode_opE]
  | trap v => simp [encode, decode_opF, decodeTrap_of_unnamed ((trap_wellFormed_iff v).mp hi)]
  | rsv8 | rsvd | ret | getc | out | puts | inp | putsp | halt => rfl

/-! ### A word is the word of its fields -/

/-- Two fields side by side are one field. -/
theorem extract_append_extract (w : Word) (s m n : Nat) :
    w.extractLsb' (s + m) n ++ w.extractLsb' s m = w.extractLsb' s (n + m) :=
  BitVec.extractLsb'_append_extractLsb'_eq_extractLsb' rfl

theorem extract_one (w : Word) (s : Nat) : w.extractLsb' s 1 = BitVec.ofBool (w.getLsbD s) := by
  refine extract_eq_of_bits w s _ fun i hi => ?_
  obtain rfl : i = 0 := by omega
  simp

@[simp] theorem drOf_bits (w : Word) : (drOf w).bits = w.extractLsb' 9 3 := Reg.bits_ofBits _
@[simp] theorem sr1Of_bits (w : Word) : (sr1Of w).bits = w.extractLsb' 6 3 := Reg.bits_ofBits _
@[simp] theorem sr2Of_bits (w : Word) : (sr2Of w).bits = w.extractLsb' 0 3 := Reg.bits_ofBits _

theorem pack9_fields (w : Word) : pack9 (opcodeOf w) (nzpOf w) (off9Of w) = w :=
  calc pack9 (opcodeOf w) (nzpOf w) (off9Of w)
    _ = w.extractLsb' 9 7 ++ off9Of w := congrArg (· ++ off9Of w) (extract_append_extract w 9 3 4)
    _ = w := (extract_append_extract w 0 9 7).trans BitVec.extractLsb'_eq_self

theorem pack6_fields (w : Word) : pack6 (opcodeOf w) (drOf w).bits (sr1Of w).bits (off6Of w) = w := by
  rw [drOf_bits, sr1Of_bits]
  calc pack6 (opcodeOf w) (w.extractLsb' 9 3) (w.extractLsb' 6 3) (off6Of w)
    _ = w.extractLsb' 9 7 ++ w.extractLsb' 6 3 ++ off6Of w :=
      congrArg (· ++ w.extractLsb' 6 3 ++ off6Of w) (extract_append_extract w 9 3 4)
    _ = w.extractLsb' 6 10 ++ off6Of w := congrArg (· ++ off6Of w) (extract_append_extract w 6 3 7)
    _ = w := (extract_append_extract w 0 6 10).trans BitVec.extractLsb'_eq_self

theorem pack11_fields (w : Word) : pack11 (opcodeOf w) (BitVec.ofBool (longOf w)) (off11Of w) = w := by
  unfold longOf
  rw [← extract_one]
  calc pack11 (opcodeOf w) (w.extractLsb' 11 1) (off11Of w)
    _ = w.extractLsb' 11 5 ++ off11Of w := congrArg (· ++ off11Of w) (extract_append_extract w 11 1 4)
    _ = w := (extract_append_extract w 0 11 5).trans BitVec.extractLsb'_eq_self

theorem and_topBit_of_clear {w : Word} {s : Nat} (h : w.getLsbD (s + 2) = false) :
    w.extractLsb' s 3 &&& 0b100#3 = 0#3 := by
  apply BitVec.eq_of_getLsbD_eq
  intro i hi
  interval_cases i <;> simp [h]

theorem off6Of_of_imm {w : Word} (h : immModeOf w = true) : 1#1 ++ imm5Of w = off6Of w := by
  have hbit : w.extractLsb' 5 1 = 1#1 := (extract_one w 5).trans (congrArg BitVec.ofBool h)
  rw [← hbit]
  exact extract_append_extract w 0 5 1

theorem off6Of_of_reg {w : Word} (h : immModeOf w = false) :
    off6Of w &&& (0b100#3 ++ BitVec.allOnes 3) = 0#3 ++ (sr2Of w).bits := by
  have hsplit : off6Of w = w.extractLsb' 3 3 ++ w.extractLsb' 0 3 := (extract_append_extract w 0 3 3).symm
  rw [hsplit, BitVec.and_append, and_topBit_of_clear h, BitVec.and_allOnes, sr2Of_bits]

/-! ### The word with its ignored bits cleared, one lemma per layout (30 R101) -/

section
variable {w : Word} {op : Opcode} (hop : opcodeOf w = op)
include hop

theorem pack9_nzp_eq : pack9 op (nzpOf w) (off9Of w) = w &&& 0xFFFF#16 := by
  rw [← hop, pack9_fields]
  exact BitVec.and_allOnes.symm

theorem pack9_dr_eq : pack9 op (drOf w).bits (off9Of w) = w &&& 0xFFFF#16 := by
  rw [drOf_bits]
  exact pack9_nzp_eq hop

theorem pack11_off11_eq (h : longOf w = true) : pack11 op 1#1 (off11Of w) = w &&& 0xFFFF#16 := by
  have hw := pack11_fields w
  rw [hop, h] at hw
  exact hw.trans BitVec.and_allOnes.symm

theorem pack8_vect_eq : pack8 op (trapvectOf w) = w &&& 0xF0FF#16 := by
  have hw : op ++ w.extractLsb' 8 4 ++ trapvectOf w = w := by
    rw [← hop]
    exact (congrArg (· ++ trapvectOf w) (extract_append_extract w 8 4 4)).trans
      ((extract_append_extract w 0 8 8).trans BitVec.extractLsb'_eq_self)
  calc pack8 op (trapvectOf w)
    _ = (op ++ w.extractLsb' 8 4 ++ trapvectOf w) &&& (BitVec.allOnes 4 ++ 0#4 ++ BitVec.allOnes 8) := by
      rw [BitVec.and_append, BitVec.and_append, BitVec.and_allOnes, BitVec.and_zero, BitVec.and_allOnes]
      rfl
    _ = w &&& 0xF0FF#16 := congrArg (· &&& 0xF0FF#16) hw

/-- A mask `m` laid out as `pack6` keeps the opcode, and of each other field what it keeps of the word. -/
theorem pack6_eq_and {hi mid hi' mid' : BitVec 3} {lo lo' : BitVec 6} {m : Word}
    (hhi : (drOf w).bits &&& hi = hi') (hmid : (sr1Of w).bits &&& mid = mid') (hlo : off6Of w &&& lo = lo')
    (hm : pack6 (BitVec.allOnes 4) hi mid lo = m) : pack6 op hi' mid' lo' = w &&& m := by
  rw [← hhi, ← hmid, ← hlo, ← hm, ← hop]
  conv_rhs => rw [← pack6_fields w]
  unfold pack6
  nth_rw 1 [← BitVec.and_allOnes (x := opcodeOf w)]
  rw [← BitVec.and_append, ← BitVec.and_append]
  exact BitVec.and_append.symm

theorem pack6_off6_eq : pack6 op (drOf w).bits (sr1Of w).bits (off6Of w) = w &&& 0xFFFF#16 :=
  pack6_eq_and hop BitVec.and_allOnes BitVec.and_allOnes BitVec.and_allOnes rfl

theorem pack6_imm5_eq (h : immModeOf w = true) :
    pack6 op (drOf w).bits (sr1Of w).bits (1#1 ++ imm5Of w) = w &&& 0xFFFF#16 := by
  rw [off6Of_of_imm h]
  exact pack6_off6_eq hop

theorem pack6_sr2_eq (h : immModeOf w = false) :
    pack6 op (drOf w).bits (sr1Of w).bits (0#3 ++ (sr2Of w).bits) = w &&& 0xFFE7#16 :=
  pack6_eq_and hop BitVec.and_allOnes BitVec.and_allOnes (off6Of_of_reg h) rfl

theorem pack6_dr_sr1_eq : pack6 op (drOf w).bits (sr1Of w).bits 0#6 = w &&& 0xFFC0#16 :=
  pack6_eq_and hop BitVec.and_allOnes BitVec.and_allOnes BitVec.and_zero rfl

theorem pack6_base_eq : pack6 op 0#3 (sr1Of w).bits 0#6 = w &&& 0xF1C0#16 :=
  pack6_eq_and hop BitVec.and_zero BitVec.and_allOnes BitVec.and_zero rfl

theorem pack6_short_base_eq (h : longOf w = false) : pack6 op 0#3 (sr1Of w).bits 0#6 = w &&& 0xF9C0#16 := by
  have hhi : (drOf w).bits &&& 0b100#3 = 0#3 := by
    rw [drOf_bits]
    exact and_topBit_of_clear h
  exact pack6_eq_and hop hhi BitVec.and_allOnes BitVec.and_zero rfl

theorem pack6_opcode_eq : pack6 op 0#3 0#3 0#6 = w &&& 0xF000#16 :=
  pack6_eq_and hop BitVec.and_zero BitVec.and_zero BitVec.and_zero rfl

end

/-- Settles O2, opcode by opcode. -/
theorem encodeOfDecodeKeepsEveryReadBit : Obligations.EncodeOfDecodeKeepsEveryReadBit := by
  intro w
  rcases opcode_cases (opcodeOf w) with
    h | h | h | h | h | h | h | h | h | h | h | h | h | h | h | h
  · rw [decode_op0 h]
    exact ⟨rfl, pack9_nzp_eq h⟩
  · rw [decode_op1 h]
    split
    next hmode => exact ⟨rfl, pack6_imm5_eq h hmode⟩
    next hmode => exact ⟨rfl, pack6_sr2_eq h (Bool.eq_false_of_not_eq_true hmode)⟩
  · rw [decode_op2 h]
    exact ⟨rfl, pack9_dr_eq h⟩
  · rw [decode_op3 h]
    exact ⟨rfl, pack9_dr_eq h⟩
  · rw [decode_op4 h]
    split
    next hlong => exact ⟨rfl, pack11_off11_eq h hlong⟩
    next hlong => exact ⟨rfl, pack6_short_base_eq h (Bool.eq_false_of_not_eq_true hlong)⟩
  · rw [decode_op5 h]
    split
    next hmode => exact ⟨rfl, pack6_imm5_eq h hmode⟩
    next hmode => exact ⟨rfl, pack6_sr2_eq h (Bool.eq_false_of_not_eq_true hmode)⟩
  · rw [decode_op6 h]
    exact ⟨rfl, pack6_off6_eq h⟩
  · rw [decode_op7 h]
    exact ⟨rfl, pack6_off6_eq h⟩
  · rw [decode_op8 h]
    exact ⟨rfl, pack6_opcode_eq h⟩
  · rw [decode_op9 h]
    exact ⟨rfl, pack6_dr_sr1_eq h⟩
  · rw [decode_opA h]
    exact ⟨rfl, pack9_dr_eq h⟩
  · rw [decode_opB h]
    exact ⟨rfl, pack9_dr_eq h⟩
  · obtain ⟨hwf, henc, hread⟩ := decodeJmp_row (sr1Of w)
    rw [decode_opC h, henc, hread]
    exact ⟨hwf, pack6_base_eq h⟩
  · rw [decode_opD h]
    exact ⟨rfl, pack6_opcode_eq h⟩
  · rw [decode_opE h]
    exact ⟨rfl, pack9_dr_eq h⟩
  · obtain ⟨hwf, henc, hread⟩ := decodeTrap_row (trapvectOf w)
    rw [decode_opF h, henc, hread]
    exact ⟨hwf, pack8_vect_eq h⟩

/-! ### Words that agree on the read bits -/

theorem readBits_opcode (i : Instr) : i.readBits.extractLsb' 12 4 = BitVec.allOnes 4 := by
  cases i <;> simp [Instr.readBits]

theorem readBits_mode_op1 {w : Word} (h : opcodeOf w = 0x1#4) : (decode w).readBits.getLsbD 5 = true := by
  rw [decode_op1 h]
  split <;> simp [Instr.readBits]

theorem readBits_long_op4 {w : Word} (h : opcodeOf w = 0x4#4) : (decode w).readBits.getLsbD 11 = true := by
  rw [decode_op4 h]
  split <;> simp [Instr.readBits]

theorem readBits_mode_op5 {w : Word} (h : opcodeOf w = 0x5#4) : (decode w).readBits.getLsbD 5 = true := by
  rw [decode_op5 h]
  split <;> simp [Instr.readBits]

theorem and_eq_of_agree {v w m : Word} (h : (v ^^^ w) &&& m = 0#16) : v &&& m = w &&& m := by
  rw [← BitVec.xor_eq_zero_iff, ← h]
  apply BitVec.eq_of_getLsbD_eq
  intro i _
  simp [Bool.and_xor_distrib_right]

section
variable {v w m : Word} (h : v &&& m = w &&& m)
include h

theorem field_eq_of_and_eq {s k : Nat} (hm : m.extractLsb' s k = BitVec.allOnes k) :
    v.extractLsb' s k = w.extractLsb' s k := by
  have hfield := congrArg (BitVec.extractLsb' s k) h
  rwa [BitVec.extractLsb'_and, BitVec.extractLsb'_and, hm, BitVec.and_allOnes, BitVec.and_allOnes] at hfield

theorem bit_eq_of_and_eq {i : Nat} (hm : m.getLsbD i = true) : v.getLsbD i = w.getLsbD i := by
  have hbit := congrArg (BitVec.getLsbD · i) h
  simpa [hm] using hbit

end

/-- What chooses the row of a word (opcode, mode bit, long bit) is among the bits its row reads. -/
theorem readBits_eq_of_and_eq {v w : Word} (h : v &&& (decode v).readBits = w &&& (decode v).readBits) :
    (decode v).readBits = (decode w).readBits := by
  have hop : opcodeOf v = opcodeOf w := field_eq_of_and_eq h (readBits_opcode _)
  rcases opcode_cases (opcodeOf w) with
    hw | hw | hw | hw | hw | hw | hw | hw | hw | hw | hw | hw | hw | hw | hw | hw
  · rw [decode_op0 hw, decode_op0 (hop.trans hw)]
    rfl
  · have hmode : immModeOf v = immModeOf w := bit_eq_of_and_eq h (readBits_mode_op1 (hop.trans hw))
    rw [decode_op1 hw, decode_op1 (hop.trans hw), hmode]
    split <;> rfl
  · rw [decode_op2 hw, decode_op2 (hop.trans hw)]
    rfl
  · rw [decode_op3 hw, decode_op3 (hop.trans hw)]
    rfl
  · have hlong : longOf v = longOf w := bit_eq_of_and_eq h (readBits_long_op4 (hop.trans hw))
    rw [decode_op4 hw, decode_op4 (hop.trans hw), hlong]
    split <;> rfl
  · have hmode : immModeOf v = immModeOf w := bit_eq_of_and_eq h (readBits_mode_op5 (hop.trans hw))
    rw [decode_op5 hw, decode_op5 (hop.trans hw), hmode]
    split <;> rfl
  · rw [decode_op6 hw, decode_op6 (hop.trans hw)]
    rfl
  · rw [decode_op7 hw, decode_op7 (hop.trans hw)]
    rfl
  · rw [decode_op8 hw, decode_op8 (hop.trans hw)]
  · rw [decode_op9 hw, decode_op9 (hop.trans hw)]
    rfl
  · rw [decode_opA hw, decode_opA (hop.trans hw)]
    rfl
  · rw [decode_opB hw, decode_opB (hop.trans hw)]
    rfl
  · obtain ⟨_, _, hv⟩ := decodeJmp_row (sr1Of v)
    obtain ⟨_, _, hw'⟩ := decodeJmp_row (sr1Of w)
    rw [decode_opC hw, decode_opC (hop.trans hw), hv, hw']
  · rw [decode_opD hw, decode_opD (hop.trans hw)]
  · rw [decode_opE hw, decode_opE (hop.trans hw)]
    rfl
  · obtain ⟨_, _, hv⟩ := decodeTrap_row (trapvectOf v)
    obtain ⟨_, _, hw'⟩ := decodeTrap_row (trapvectOf w)
    rw [decode_opF hw, decode_opF (hop.trans hw), hv, hw']

/-- A word decodes as its read bits alone do: encode what it decodes to, and decode that. -/
theorem decode_and_readBits (w : Word) : decode (w &&& (decode w).readBits) = decode w := by
  obtain ⟨hwf, hword⟩ := encodeOfDecodeKeepsEveryReadBit w
  rw [← hword, decodeOfEncodeIsTheInstruction _ hwf]

/-- Settles O3: both words decode as the read bits they share. -/
theorem ignoredBitsDoNotChangeTheInstruction : Obligations.IgnoredBitsDoNotChangeTheInstruction := by
  intro v w h
  have hand := and_eq_of_agree h
  calc decode w
    _ = decode (w &&& (decode w).readBits) := (decode_and_readBits w).symm
    _ = decode (v &&& (decode v).readBits) := by rw [hand, readBits_eq_of_and_eq hand]
    _ = decode v := decode_and_readBits v

/-! ### The words of the spec's examples -/

/-- Settles O4: eleven fixed words. -/
theorem wordsOfTheSpecDecode : Obligations.WordsOfTheSpecDecode := by
  unfold Obligations.WordsOfTheSpecDecode
  decide

end Sys2Proof

namespace Sys2Proof.Machine

/-! ### Aliases and zero words at run time -/

/-- Each built-in selector dispatches to its own routine (45 R231). -/
theorem dispatch_builtIn (s : State) :
    dispatch 0x20#8 s = routineGetc s ∧ dispatch 0x21#8 s = routineOut s ∧ dispatch 0x22#8 s = routinePuts s ∧
    dispatch 0x23#8 s = routineIn s ∧ dispatch 0x24#8 s = routinePutsp s ∧ dispatch 0x25#8 s = routineHalt s := by
  simp [dispatch]

/-- Settles O29: RET is JMP R7, and the six named routines are what TRAP dispatches their selectors to. -/
theorem aliasesRunAsTheirCoreRow : Obligations.AliasesRunAsTheirCoreRow := by
  intro i s
  obtain ⟨hgetc, hout, hputs, hin, hputsp, hhalt⟩ := dispatch_builtIn s.trapEntry
  cases i with
  | ret => rfl
  | getc => exact hgetc.symm
  | out => exact hout.symm
  | puts => exact hputs.symm
  | inp => exact hin.symm
  | putsp => exact hputsp.symm
  | halt => exact hhalt.symm
  | _ => rfl

/-- Settles O52: the zero word is a BR with an empty mask, so the step is the fetch alone. -/
theorem zeroMemoryRunsAsNoOps : Obligations.ZeroMemoryRunsAsNoOps := by
  intro s hrun hpc hzero
  rw [step_of_running hrun, s.fetch_other hpc, hzero, decode_zero, exec_br_never]

end Sys2Proof.Machine


/-! SUPPORT. The engine (40): the flag logic, the start of a run, the fetch and the ends of a step. -/

namespace Sys2Proof.Machine

/-! ### What a step keeps and how it ends (40 R133, R135, R137) -/

/-- Settles O11: an instruction leaves in COND the flag of the register it wrote last, or COND and every register as
they were; the start of the run touches neither. -/
theorem stepKeepsCondFollowingARegister : Obligations.StepKeepsCondFollowingARegister := by
  intro s t h hs
  rcases step_effect h with ⟨_, heffect⟩ | ⟨_, _, rfl⟩
  · exact heffect.condFollowsARegister hs
  · exact hs

/-- Settles O47: an instruction leaves the run state as it was, or stops by HALT or a reserved opcode. -/
theorem stepGoesOnOrStopsWithAReason : Obligations.StepGoesOnOrStopsWithAReason := by
  intro s t hrun hreason h
  rcases step_effect h with ⟨_, heffect⟩ | ⟨hidle, _, _⟩
  · rcases heffect.runState with ⟨hrun', hreason'⟩ | hstop
    · exact .inl ⟨hrun'.trans hrun, hreason'.trans hreason⟩
    · exact .inr hstop
  · rw [hrun] at hidle
    cases hidle

/-! ### The flag logic (40 R134) -/

/-- The three flags are distinct, so each names its class of values. -/
theorem flagOf_eq_iff (v : Word) :
    (flagOf v = Config.condZ ↔ v.toNat = 0) ∧ (flagOf v = Config.condN ↔ v.getLsbD 15 = true) ∧
    (flagOf v = Config.condP ↔ v.toNat ≠ 0 ∧ v.getLsbD 15 = false) := by
  have hzero : v.toNat = 0 ↔ v = 0x0000#16 := (BitVec.toNat_eq (y := 0x0000#16)).symm
  rw [← condOf_eq_flagOf, Ne, hzero]
  by_cases hv : v = 0x0000#16
  · rw [hv]
    decide
  · cases hsign : v.getLsbD 15 <;> simp only [condOf, hv, hsign] <;> decide

/-- Settles O7, by the classes of the three flags; update_flags writes COND alone. -/
theorem updateFlagsWritesTheFlagOfTheRegister : Obligations.UpdateFlagsWritesTheFlagOfTheRegister :=
  fun s i => ⟨condOf_eq_flagOf _, flagOf_eq_iff _, s.updateFlags_reg i, rfl, rfl, rfl, rfl, rfl⟩

/-! ### The fetch (40 R131) and the word placed there (log 6, 31) -/

/-- Settles O42, by the two cases of the fetch. -/
theorem stepRunsTheDecodedInstruction : Obligations.StepRunsTheDecodedInstruction := by
  refine fun s hrun => ⟨fun hpc => ?_, fun hpc => ?_⟩
  · rw [step_of_running hrun, s.fetch_other hpc]
  · rw [step_of_running hrun, State.fetch_kbsr hpc, State.afterRead_kbsr, hpc]
    rfl

/-- Placing a word is a store to `pc` in a running machine whose `pc` is not KBSR_ADDR. -/
theorem State.placeAtFetch_eq_memWrite (s : State) (w : Word) :
    ∃ t : State, t.running = true ∧ t.pc ≠ Config.kbsrAddr ∧ t.mem = s.mem ∧
      s.placeAtFetch w = t.memWrite t.pc w := by
  refine ⟨{ s.placeAtFetch w with mem := s.mem }, rfl, ?_, rfl, rfl⟩
  dsimp only [State.placeAtFetch]
  split_ifs with hhome
  · rw [Bool.and_eq_true, bne_iff_ne] at hhome
    exact hhome.2
  · decide

/-- Settles O43: the step after a store to `pc` runs the word stored. -/
theorem placedWordRunsNext : Obligations.PlacedWordRunsNext := by
  intro s w hm hw
  obtain ⟨t, hrun, hpc, hmem, hplace⟩ := s.placeAtFetch_eq_memWrite (BitVec.ofNat 16 w)
  have hword : s.withFetchWord 16 w = t.memWrite t.pc (BitVec.ofNat 16 w) := by
    rw [State.withFetchWord, show w % 2 ^ 16 = w from Nat.mod_eq_of_lt hw, hplace]
  rw [hword]
  exact step_memWrite_pc _ (hmem ▸ hm) hrun hpc

/-! ### The start of a run (40 R130) -/

/-- A machine that has not run starts its run. -/
theorem step_of_idle {s : State} (hrun : s.running = false) (hreason : s.stopReason = .none) :
    step s = .next s.startRun := by
  simp [step, hrun, hreason]

/-- Settles O45: the start of the run writes pc and running only. -/
theorem runStartsAtStartPc : Obligations.RunStartsAtStartPc :=
  fun s hrun hreason =>
    ⟨s.startRun, step_of_idle hrun hreason, rfl, rfl, hreason, s.startRun_reg, rfl, rfl, rfl⟩

end Sys2Proof.Machine


/-! SUPPORT. The conditional branch (41): when the mask meets COND, and a write of pc alone. -/

namespace Sys2Proof.Machine

/-- The mask and a Word meet when they share one of the mask's three bits. -/
theorem mask_meets_iff (nzp : BitVec 3) (c : Word) :
    nzp.setWidth 16 &&& c ≠ 0x0000#16 ↔ ∃ k, k < 3 ∧ nzp.getLsbD k = true ∧ c.getLsbD k = true := by
  have hbit (k : Nat) (hk : k < 16) :
      (nzp.setWidth 16 &&& c).getLsbD k = (nzp.getLsbD k && c.getLsbD k) := by
    simp [hk]
  constructor
  · intro hne
    by_contra hnone
    refine hne (BitVec.eq_of_getLsbD_eq fun k hk => ?_)
    rw [hbit k hk, BitVec.getLsbD_zero, Bool.and_eq_false_imp]
    exact fun hmask => Bool.eq_false_iff.mpr fun hc => hnone ⟨k, BitVec.lt_of_getLsbD hmask, hmask, hc⟩
  · rintro ⟨k, hk, hmask, hc⟩ hzero
    have hset := hbit k (by omega)
    rw [hzero, hmask, hc, BitVec.getLsbD_zero] at hset
    cases hset

theorem setPc_movesPc (s : State) (target : Word) : MovesPc s (s.setPc target) target :=
  ⟨rfl, s.setPc_reg target, rfl, rfl, rfl, rfl, rfl⟩

/-- A state moves to its own pc by staying as it is. -/
theorem MovesPc.refl (s : State) : MovesPc s s s.pc :=
  ⟨rfl, fun _ => rfl, rfl, rfl, rfl, rfl, rfl⟩

theorem exec_br_taken {nzp : BitVec 3} {s : State} (off : BitVec 9) (h : nzp.setWidth 16 &&& s.cond ≠ 0x0000#16) :
    exec (.br nzp off) s = .next (s.setPc (s.pc + sext9 off)) :=
  congrArg Host.Outcome.next (if_pos h)

theorem exec_br_not_taken {nzp : BitVec 3} {s : State} (off : BitVec 9)
    (h : ¬ nzp.setWidth 16 &&& s.cond ≠ 0x0000#16) : exec (.br nzp off) s = .next s :=
  congrArg Host.Outcome.next (if_neg h)

/-- Settles O12: a bit in common is a taken branch, and no bit in common leaves the state as it was. -/
theorem branchIsTakenWhenTheMaskMeetsCond : Obligations.BranchIsTakenWhenTheMaskMeetsCond := by
  refine fun nzp off s => ⟨fun hmeet => ?_, fun hapart => ?_⟩
  · exact ⟨_, exec_br_taken off ((mask_meets_iff nzp s.cond).mpr hmeet), setPc_movesPc s _⟩
  · have hnot : ¬ nzp.setWidth 16 &&& s.cond ≠ 0x0000#16 := by
      rw [mask_meets_iff]
      rintro ⟨k, hk, hmask, hcond⟩
      exact Bool.eq_false_iff.mp (hapart k hk hmask) hcond
    exact ⟨s, exec_br_not_taken off hnot, .refl s⟩

end Sys2Proof.Machine


/-! SUPPORT. The operate instructions (42): each is one register write, of a value made from the operands. -/

namespace Sys2Proof.Machine

/-! ### ADD (42 R160, R161) -/

theorem exec_addR (d a b : Reg) (s : State) : exec (.addR d a b) s = .next (s.writeReg d (s.reg a + s.reg b)) := rfl

theorem exec_addI (d a : Reg) (imm : BitVec 5) (s : State) :
    exec (.addI d a imm) s = .next (s.writeReg d (s.reg a + sext5 imm)) := rfl

/-- Settles O13: each mode writes a Word sum, and Word addition wraps at 65536. -/
theorem addWritesTheWrappedSum : Obligations.AddWritesTheWrappedSum := by
  constructor
  · intro d a b s
    exact ⟨_, _, exec_addR d a b s, writeReg_writesRegister s d _, BitVec.toNat_add ..⟩
  · intro d a imm s
    exact ⟨_, _, exec_addI d a imm s, writeReg_writesRegister s d _, BitVec.toNat_add ..⟩

/-! ### AND (42 R163, R164) -/

theorem exec_andR (d a b : Reg) (s : State) : exec (.andR d a b) s = .next (s.writeReg d (s.reg a &&& s.reg b)) := rfl

theorem exec_andI (d a : Reg) (imm : BitVec 5) (s : State) :
    exec (.andI d a imm) s = .next (s.writeReg d (s.reg a &&& sext5 imm)) := rfl

/-- Settles O14: each mode writes a Word AND, which is taken bit by bit. -/
theorem andWritesTheBitwiseAnd : Obligations.AndWritesTheBitwiseAnd := by
  constructor
  · intro d a b s
    exact ⟨_, _, exec_andR d a b s, writeReg_writesRegister s d _, fun _ => BitVec.getLsbD_and⟩
  · intro d a imm s
    exact ⟨_, _, exec_andI d a imm s, writeReg_writesRegister s d _, fun _ => BitVec.getLsbD_and⟩

/-! ### NOT (42 R166) -/

theorem exec_not (d r : Reg) (s : State) : exec (.not d r) s = .next (s.writeReg d (~~~ s.reg r)) := rfl

/-- Settles O15: the value written is the Word complement, which is 2^16 - 1 less the Word. -/
theorem notWritesTheComplement : Obligations.NotWritesTheComplement := by
  intro d r s
  exact ⟨_, _, exec_not d r s, writeReg_writesRegister s d _, BitVec.toNat_not⟩

end Sys2Proof.Machine


/-! SUPPORT. Loads, stores and LEA (43): each is made of MemReads, which poll at KBSR_ADDR, and one register write or
one plain store. -/

namespace Sys2Proof.Machine

/-! ### The shared parts: the load and the pointer read -/

/-- A read at an address that is KBSR_ADDR answers KB_READY or 0 (20 R62). -/
theorem State.memRead_values_of_kbsr {s : State} {a : Word} (hm : Memory.wf s.mem) (ha : a = Config.kbsrAddr) :
    (s.memRead a).1 = Config.kbReady ∨ (s.memRead a).1 = 0x0000#16 := by
  subst ha
  exact State.memRead_kbsr_values hm

theorem loadInto_writesRegister (s : State) (d : Reg) (ea : Word) :
    WritesRegister (s.afterRead ea) (s.loadInto d ea) d (s.memRead ea).1 :=
  writeReg_writesRegister (s.afterRead ea) d _

theorem pointer_reads (s : State) (off : BitVec 9) :
    Reads s (s.pointer off).2 (s.pc + sext9 off) (s.pointer off).1 :=
  memRead_reads s _

theorem State.pointer_wf {s : State} (off : BitVec 9) (hm : Memory.wf s.mem) : Memory.wf (s.pointer off).2.mem :=
  State.afterRead_wf _ hm

theorem State.pointer_reg (s : State) (off : BitVec 9) (r : Reg) : (s.pointer off).2.reg r = s.reg r :=
  s.afterRead_reg _ r

/-! ### LD and LDR (43 R180, R188) -/

theorem exec_ld (d : Reg) (off : BitVec 9) (s : State) :
    exec (.ld d off) s = .next (s.loadInto d (s.pc + sext9 off)) := rfl

theorem exec_ldr (d b : Reg) (off : BitVec 6) (s : State) :
    exec (.ldr d b off) s = .next (s.loadInto d (s.reg b + sext6 off)) := rfl

/-- Settles O22: both are one load, whose address is computed before the register write. -/
theorem loadsWriteTheWordRead : Obligations.LoadsWriteTheWordRead := by
  constructor
  · intro d off s
    exact ⟨_, _, _, exec_ld d off s, memRead_reads s _, loadInto_writesRegister s d _, State.memRead_values_of_kbsr⟩
  · intro d b off s
    exact ⟨_, _, _, exec_ldr d b off s, memRead_reads s _, loadInto_writesRegister s d _,
      State.memRead_values_of_kbsr⟩

/-! ### LDI (43 R184) -/

theorem exec_ldi (d : Reg) (off : BitVec 9) (s : State) :
    exec (.ldi d off) s = .next ((s.pointer off).2.loadInto d (s.pointer off).1) := rfl

/-- Settles O23: the pointer read, then a load from the state it leaves. -/
theorem loadIndirectReadsThroughThePointer : Obligations.LoadIndirectReadsThroughThePointer := by
  intro d off s
  exact ⟨_, _, _, _, _, exec_ldi d off s, pointer_reads s off, memRead_reads _ _, loadInto_writesRegister _ d _,
    State.memRead_values_of_kbsr, fun hm => State.memRead_values_of_kbsr (State.pointer_wf off hm)⟩

/-! ### ST and STR (43 R182, R190) -/

theorem exec_st (r : Reg) (off : BitVec 9) (s : State) :
    exec (.st r off) s = .next (s.memWrite (s.pc + sext9 off) (s.reg r)) := rfl

theorem exec_str (r b : Reg) (off : BitVec 6) (s : State) :
    exec (.str r b off) s = .next (s.memWrite (s.reg b + sext6 off) (s.reg r)) := rfl

/-- Settles O24: both are one store. -/
theorem storesWriteOneWord : Obligations.StoresWriteOneWord := by
  intro s hm
  constructor
  · intro r off
    exact ⟨_, exec_st r off s, memWrite_storesWord hm _ _⟩
  · intro r b off
    exact ⟨_, exec_str r b off s, memWrite_storesWord hm _ _⟩

/-! ### STI (43 R186) -/

/-- The pointer read leaves SR alone, so the Word stored is SR's before the instruction. -/
theorem exec_sti (r : Reg) (off : BitVec 9) (s : State) :
    exec (.sti r off) s = .next ((s.pointer off).2.memWrite (s.pointer off).1 (s.reg r)) := by
  rw [← s.pointer_reg off r]
  rfl

/-- Settles O25: the pointer read, then one store in the state it leaves. -/
theorem storeIndirectWritesThroughThePointer : Obligations.StoreIndirectWritesThroughThePointer := by
  intro r off s hm
  exact ⟨_, _, _, exec_sti r off s, pointer_reads s off, memWrite_storesWord (State.pointer_wf off hm) _ _,
    State.memRead_values_of_kbsr hm⟩

/-! ### LEA (43 R192) -/

theorem exec_lea (d : Reg) (off : BitVec 9) (s : State) :
    exec (.lea d off) s = .next (s.writeReg d (s.pc + sext9 off)) := rfl

/-- Settles O26: one register write, of the address. -/
theorem loadEffectiveAddressReadsNoMemory : Obligations.LoadEffectiveAddressReadsNoMemory := by
  intro d off s
  exact ⟨_, exec_lea d off s, writeReg_writesRegister s d _⟩

end Sys2Proof.Machine


/-! SUPPORT. Jumps and subroutine calls (44): each is a write of pc, which a call makes after its link. -/

namespace Sys2Proof.Machine

/-! ### JMP and RET (44 R210, R211) -/

theorem exec_jmp (b : Reg) (s : State) : exec (.jmp b) s = .next (s.setPc (s.reg b)) := rfl

theorem exec_ret (s : State) : exec .ret s = .next (s.setPc (s.reg .r7)) := rfl

/-- Settles O27: both write pc alone. -/
theorem jumpsGoToTheRegister : Obligations.JumpsGoToTheRegister := by
  constructor
  · intro b s
    exact ⟨_, exec_jmp b s, setPc_movesPc s _⟩
  · intro s
    exact ⟨_, exec_ret s, setPc_movesPc s _⟩

/-! ### JSR and JSRR (44 R213, R215) -/

/-- The link writes R7 and its flag, and the jump then changes pc alone. -/
theorem link_setPc_linksAndJumps (s : State) (target : Word) : LinksAndJumps s (s.link.setPc target) target :=
  ⟨s.link_reg_r7, fun _ h => s.writeReg_reg_other s.pc h, s.link_cond.trans (condOf_eq_flagOf s.pc), rfl, rfl, rfl,
    rfl, rfl⟩

/-- The link leaves pc alone, so the target is counted from the pc before the instruction. -/
theorem exec_jsr (off : BitVec 11) (s : State) : exec (.jsr off) s = .next (s.link.setPc (s.pc + sext11 off)) := rfl

/-- BaseR is read after the link (44 R215). -/
theorem exec_jsrr (b : Reg) (s : State) : exec (.jsrr b) s = .next (s.link.setPc (s.link.reg b)) := rfl

theorem exec_jsrr_of_ne_r7 {b : Reg} (s : State) (h : b ≠ .r7) :
    exec (.jsrr b) s = .next (s.link.setPc (s.reg b)) := by
  rw [exec_jsrr, State.link_reg, if_neg h]

theorem exec_jsrr_r7 (s : State) : exec (.jsrr .r7) s = .next (s.link.setPc s.pc) := by
  rw [exec_jsrr, State.link_reg_r7]

/-- Settles O28: each call is a link and a jump; the link is what BaseR holds when BaseR is R7. -/
theorem callsLinkAndJump : Obligations.CallsLinkAndJump := by
  refine ⟨?jsr, ?jsrrOther, ?jsrrR7⟩
  case jsr =>
    intro off s
    exact ⟨_, exec_jsr off s, link_setPc_linksAndJumps s _⟩
  case jsrrOther =>
    intro b s hb
    exact ⟨_, exec_jsrr_of_ne_r7 s hb, link_setPc_linksAndJumps s _⟩
  case jsrrR7 =>
    intro s
    exact ⟨_, exec_jsrr_r7 s, link_setPc_linksAndJumps s _⟩

end Sys2Proof.Machine


/-! SUPPORT. Traps (45): trap entry, and then a routine that writes the console, puts a character in R0, stops the run
or prints a string. -/

namespace Sys2Proof.Machine

/-! ### Trap entry and what a routine adds to it (45 R230, 60 R275) -/

theorem State.trapEntry_reg_other (s : State) {r : Reg} (h : r ≠ .r7) : s.trapEntry.reg r = s.reg r :=
  s.writeReg_reg_other s.pc h

theorem State.trapEntry_flag (s : State) : s.trapEntry.cond = flagOf s.pc :=
  s.trapEntry_cond.trans (condOf_eq_flagOf s.pc)

theorem State.consoleWriteAll_nil (s : State) : s.consoleWriteAll [] = s := by
  simp [State.consoleWriteAll]

theorem trapEntry_consoleWriteAll_trapWrites (s : State) (out : List Byte) :
    TrapWrites s (s.trapEntry.consoleWriteAll out) out :=
  ⟨s.trapEntry_reg_r7, fun _ h => s.trapEntry_reg_other h, s.trapEntry_flag, rfl, rfl, rfl, rfl, rfl⟩

/-- The character is written to R0 after the link of R7, so COND follows R0 (log 25). -/
theorem trapEntry_writeReg_trapReads (s : State) (con : Console) (c : Byte) :
    TrapReads s ({ s.trapEntry with console := con }.writeReg .r0 (zext16 c)) c := by
  refine ⟨State.writeReg_reg_same _ _ _, rfl, fun r h0 h7 => ?_, ?_, rfl, rfl, rfl, rfl⟩
  · rw [State.writeReg_reg_other _ _ h0]
    exact s.trapEntry_reg_other h7
  · rw [State.writeReg_cond, condOf_eq_flagOf]

/-! ### A selector without a routine (45 R238) -/

theorem dispatch_of_unnamed {v : Byte} (s : State) (h : v ∉ namedSelectors) :
    dispatch v s = routineUnknown Config.unknownTrap s := by
  simp only [namedSelectors, List.mem_cons, List.not_mem_nil, or_false, not_or] at h
  simp [dispatch, h]

/-- The default reading of UNKNOWN_TRAP is NoOp (log 10). -/
theorem exec_trap_of_unnamed {v : Byte} (s : State) (h : v ∉ namedSelectors) :
    exec (.trap v) s = .next s.trapEntry :=
  dispatch_of_unnamed s.trapEntry h

/-- Settles O30: trap entry, and a write of no character. -/
theorem unknownSelectorOnlyLinks : Obligations.UnknownSelectorOnlyLinks := by
  intro v s hv
  have hunnamed : v ∉ namedSelectors := by simpa using hv
  have hwrites := trapEntry_consoleWriteAll_trapWrites s []
  rw [State.consoleWriteAll_nil] at hwrites
  exact ⟨_, exec_trap_of_unnamed s hunnamed, hwrites⟩

theorem abort_aborts (s : State) (op : Opcode) : Aborts s (s.abort op) op :=
  ⟨s.abort_reg op, rfl, rfl, rfl, rfl, rfl, rfl⟩

/-- Settles O31: the other reading is the abort with 0xF. -/
theorem unknownSelectorOtherReadingAborts : Obligations.UnknownSelectorOtherReadingAborts :=
  fun s => ⟨s.abort 0xF#4, rfl, abort_aborts s _⟩

/-! ### ConsoleRead (00 R14) -/

theorem Console.read_scripted {con : Console} {c : Byte} {cs : List Byte} (h : con.input = c :: cs) :
    con.read = some (c, { con with input := cs }) := by
  simp [Console.read, h]

theorem Console.read_free {con : Console} (hinput : con.input = []) (hended : con.ended = false) :
    con.read = some (Config.consoleChar con.draws, { con with draws := con.draws + 1 }) := by
  simp [Console.read, hinput, hended]

theorem Console.read_at_end {con : Console} (hinput : con.input = []) (hended : con.ended = true) :
    con.read = none := by
  simp [Console.read, hinput, hended]

/-! ### GETC (45 R232) -/

theorem exec_getc_of_read {s : State} {c : Byte} {con : Console} (h : s.console.read = some (c, con)) :
    exec .getc s = .next ({ s.trapEntry with console := con }.writeReg .r0 (zext16 c)) := by
  simp [exec, execGetc, routineGetc, h]

theorem exec_getc_at_end {s : State} (h : s.console.read = none) : exec .getc s = .fault .awaitingInput := by
  simp [exec, execGetc, routineGetc, h]

/-- Settles O32, by the three answers of ConsoleRead. -/
theorem getcReadsOneCharacter : Obligations.GetcReadsOneCharacter := by
  refine fun s => ⟨fun c cs hinput => ?scripted, fun hinput hended => ?free, fun hinput hended => ?atEnd⟩
  case scripted =>
    exact ⟨_, exec_getc_of_read (Console.read_scripted hinput), trapEntry_writeReg_trapReads s _ c, rfl⟩
  case free =>
    exact ⟨_, _, exec_getc_of_read (Console.read_free hinput hended), trapEntry_writeReg_trapReads s _ _, rfl⟩
  case atEnd => exact exec_getc_at_end (Console.read_at_end hinput hended)

/-! ### IN (45 R235) -/

/-- The console IN reads from: the prompt has been written. -/
def State.promptedConsole (s : State) : Console := (s.consoleWriteAll Config.inPrompt).console

theorem exec_inp_of_read {s : State} {c : Byte} {con : Console} (h : s.promptedConsole.read = some (c, con)) :
    exec .inp s = .next ({ s.trapEntry with console := con.write c }.writeReg .r0 (zext16 c)) := by
  have hread : (s.trapEntry.consoleWriteAll Config.inPrompt).console.read = some (c, con) := h
  simp only [exec, execIn, routineIn, hread]
  rfl

theorem exec_inp_at_end {s : State} (h : s.promptedConsole.read = none) : exec .inp s = .fault .awaitingInput := by
  have hread : (s.trapEntry.consoleWriteAll Config.inPrompt).console.read = none := h
  simp only [exec, execIn, routineIn, hread]

/-- Settles O33, by the three answers of ConsoleRead after the prompt. -/
theorem inPromptsReadsAndEchoes : Obligations.InPromptsReadsAndEchoes := by
  refine fun s => ⟨fun c cs hinput => ?scripted, fun hinput hended => ?free, fun hinput hended => ?atEnd⟩
  case scripted =>
    have hread := Console.read_scripted (con := s.promptedConsole) hinput
    exact ⟨_, exec_inp_of_read hread, trapEntry_writeReg_trapReads s _ c, rfl⟩
  case free =>
    have hread := Console.read_free (con := s.promptedConsole) hinput hended
    exact ⟨_, _, exec_inp_of_read hread, trapEntry_writeReg_trapReads s _ _, rfl⟩
  case atEnd => exact exec_inp_at_end (Console.read_at_end hinput hended)

/-! ### OUT and HALT (45 R233, R237) -/

theorem lowSevenBits_eq_ofNat (w : Word) : (w.extractLsb' 0 7).setWidth 8 = BitVec.ofNat 8 (w.toNat % 128) := by
  apply BitVec.eq_of_toNat_eq
  simp

theorem exec_out (s : State) :
    exec .out s = .next (s.trapEntry.consoleWriteAll [((s.reg .r0).extractLsb' 0 7).setWidth 8]) := rfl

/-- Settles O34: trap entry, and a write of one character. -/
theorem outWritesSevenBits : Obligations.OutWritesSevenBits := by
  intro s
  rw [← lowSevenBits_eq_ofNat]
  exact ⟨_, exec_out s, trapEntry_consoleWriteAll_trapWrites s _⟩

theorem exec_halt (s : State) :
    exec .halt s = .next ((s.trapEntry.consoleWriteAll Config.haltMsg).stop .halt) := rfl

/-- No step follows a stop with a reason (40 R137). -/
theorem step_stop_ne_next (s : State) {why : StopReason} (h : why ≠ .none) (u : State) :
    step (s.stop why) ≠ .next u := by
  rw [stoppedMachineTakesNoStep (s.stop why) rfl h]
  nofun

/-- Settles O40: trap entry and the message, and then a stop. -/
theorem haltStopsTheRun : Obligations.HaltStopsTheRun := by
  intro s
  obtain ⟨hr7, hreg, hcond, hpc, hmem, hconsole, _⟩ := trapEntry_consoleWriteAll_trapWrites s Config.haltMsg
  exact ⟨_, exec_halt s, hr7, hreg, hcond, hpc, hmem, hconsole, rfl, rfl, step_stop_ne_next _ nofun⟩

/-! ### PUTS and PUTSP: a string outside KBSR_ADDR (45 R234, R236) -/

theorem exec_puts (s : State) : exec .puts s = routineString putsCell s.trapEntry := rfl

theorem exec_putsp (s : State) : exec .putsp s = routineString putspCell s.trapEntry := rfl

/-- PUTS and PUTSP differ in what they write for a cell, and in nothing else. -/
theorem exec_string {i : Instr} (h : i = .puts ∨ i = .putsp) :
    ∃ cell, ∀ s, exec i s = routineString cell s.trapEntry := by
  rcases h with rfl | rfl
  · exact ⟨putsCell, exec_puts⟩
  · exact ⟨putspCell, exec_putsp⟩

/-- The first run of cells is longer than any string. -/
theorem routineString_string (cell : Word → List Byte) {s : State} {ws : List Word}
    (h : StringAt s.mem (s.reg .r0) ws) : routineString cell s = .next (s.consoleWriteAll (ws.flatMap cell)) := by
  have hfuel : ws.length < stringFuel s := by
    have := h.length_lt
    have := le_stringFuel s
    omega
  exact stringLoop_string cell .next (stringRest cell) h hfuel

theorem lowByte_eq_ofNat (w : Word) : w.extractLsb' 0 8 = BitVec.ofNat 8 (w.toNat % 256) :=
  BitVec.eq_of_toNat_eq (by simp)

theorem highByte_eq_ofNat (w : Word) : w.extractLsb' 8 8 = BitVec.ofNat 8 (w.toNat / 256) :=
  BitVec.eq_of_toNat_eq (by simp [Nat.shiftRight_eq_div_pow])

theorem highByte_eq_zero_iff (w : Word) : w.extractLsb' 8 8 = 0x00#8 ↔ w.toNat < 256 := by
  have := w.isLt
  rw [highByte_eq_ofNat, BitVec.toNat_eq, BitVec.toNat_ofNat, BitVec.toNat_ofNat]
  omega

theorem putsCell_eq (w : Word) : putsCell w = [BitVec.ofNat 8 (w.toNat % 256)] := by
  rw [putsCell, lowByte_eq_ofNat]

/-- Settles O35: trap entry, and a write of each cell's low byte. -/
theorem putsWritesTheString : Obligations.PutsWritesTheString := by
  intro s ws h
  have hout : ws.flatMap putsCell = ws.map fun w => BitVec.ofNat 8 (w.toNat % 256) := by
    rw [List.map_eq_flatMap, funext putsCell_eq]
  rw [← hout]
  exact ⟨_, (exec_puts s).trans (routineString_string putsCell (s := s.trapEntry) h),
    trapEntry_consoleWriteAll_trapWrites s _⟩

theorem putspCell_eq (w : Word) : putspCell w =
    if w.toNat < 256 then [BitVec.ofNat 8 w.toNat]
    else [BitVec.ofNat 8 (w.toNat % 256), BitVec.ofNat 8 (w.toNat / 256)] := by
  unfold putspCell
  by_cases hw : w.toNat < 256
  · rw [if_pos hw, if_pos ((highByte_eq_zero_iff w).mpr hw), lowByte_eq_ofNat, Nat.mod_eq_of_lt hw]
  · rw [if_neg hw, if_neg (mt (highByte_eq_zero_iff w).mp hw), lowByte_eq_ofNat, highByte_eq_ofNat]

/-- Settles O36: trap entry, and a write of each cell's low byte and its high byte if it is not 0. -/
theorem putspWritesThePackedString : Obligations.PutspWritesThePackedString := by
  intro s ws h
  have hexec := (exec_putsp s).trans (routineString_string putspCell (s := s.trapEntry) h)
  rw [funext putspCell_eq] at hexec
  exact ⟨_, hexec, trapEntry_consoleWriteAll_trapWrites s _⟩

/-! ### PUTS and PUTSP: any string (45 R234 (e), R236) -/

theorem routineString_printsCells {cell : Word → List Byte} {s t : State} (h : routineString cell s = .next t) :
    PrintsCells s t := by
  rcases routineString_cases cell s with hfault | ⟨u, hnext, hprints⟩
  · cases h.symm.trans hfault
  · cases h.symm.trans hnext
    exact hprints

/-- Settles O39: trap entry, and then cells that only print. -/
theorem stringRoutinesFrame : Obligations.StringRoutinesFrame := by
  intro i s t hi h
  obtain ⟨cell, hexec⟩ := exec_string hi
  rw [hexec] at h
  obtain ⟨hregs, hpc, hcond, hrun, hmem, hout, _⟩ := routineString_printsCells h
  have hreg (r : Reg) : t.reg r = s.trapEntry.reg r := congrArg (Regs.get · r) hregs
  exact ⟨(hreg .r7).trans s.trapEntry_reg_r7, fun r hr => (hreg r).trans (s.trapEntry_reg_other hr),
    hcond.trans s.trapEntry_flag, hpc, hmem, hout, hrun⟩

/-- The cell after `a` is one nearer to every other cell than `a` is. -/
theorem distance_from_next_cell {a z : Word} (h : a ≠ z) : (z - (a + 1)).toNat + 1 = (z - a).toNat := by
  bv_omega

/-- No poll changes an ordinary Word, so a run of cells that comes to an ordinary zero ends there at the latest. -/
theorem stringLoop_ends_at_zero (cell : Word → List Byte) (done : State → Host.Outcome State Fault Refusal)
    (more : Word → State → Host.Outcome State Fault Refusal) {z : Word} {n : Nat} {a : Word} {s : State}
    (hkbsr : z ≠ Config.kbsrAddr) (hkbdr : z ≠ Config.kbdrAddr) (hz : readWord s.mem z = 0x0000#16)
    (hn : (z - a).toNat < n) : ∃ t, stringLoop cell done more n a s = done t := by
  induction n generalizing a s with
  | zero => cases hn
  | succ n ih =>
    unfold stringLoop
    split
    · exact ⟨_, rfl⟩
    · rename_i hcell
      have ha : a ≠ z := by
        rintro rfl
        rw [State.memRead_other s hkbsr] at hcell
        exact hcell hz
      have hz' : readWord (s.afterRead a).mem z = 0x0000#16 :=
        (afterRead_sameOrdinaryMemory s a z hkbsr hkbdr).trans hz
      have hdistance := distance_from_next_cell ha
      exact ih hz' (by omega)

/-- The first run of cells goes round all of Memory. -/
theorem routineString_ends_at_zero (cell : Word → List Byte) {z : Word} {s : State} (hkbsr : z ≠ Config.kbsrAddr)
    (hkbdr : z ≠ Config.kbdrAddr) (hz : readWord s.mem z = 0x0000#16) : ∃ t, routineString cell s = .next t := by
  have hfuel : (z - s.reg .r0).toNat < stringFuel s := by
    have := (z - s.reg .r0).isLt
    have := le_stringFuel s
    omega
  exact stringLoop_ends_at_zero cell .next (stringRest cell) hkbsr hkbdr hz hfuel

/-- Settles O37, by the run round Memory from the state after trap entry. -/
theorem stringRoutinesCompleteWhenSomeCellIsZero : Obligations.StringRoutinesCompleteWhenSomeCellIsZero :=
  fun s _ hkbsr hkbdr hz =>
    ⟨routineString_ends_at_zero putsCell (s := s.trapEntry) hkbsr hkbdr hz,
      routineString_ends_at_zero putspCell (s := s.trapEntry) hkbsr hkbdr hz⟩

/-- The first run of cells polls once for each scripted answer and character, and once more. -/
theorem routineString_ends_at_poll (cell : Word → List Byte) {s : State} (hm : Memory.wf s.mem)
    (h : s.console.endsIn (s.console.polls.length + s.console.input.length + 1)) :
    ∃ t, routineString cell s = .next t := by
  refine stringLoop_ends cell .next (stringRest cell) hm rfl h ?_
  unfold stringFuel
  omega

/-- The three scripts in which a poll that ends a string is sure to come. -/
theorem Console.endsIn_of_ending_script {c : Console}
    (h : false ∈ c.polls ∨ c.ended = true ∨ 0x00#8 ∈ c.input) :
    c.endsIn (c.polls.length + c.input.length + 1) := by
  rcases h with hno | hended | hzero
  · exact Console.endsIn_mono (by omega) (Console.endsIn_of_script hno)
  · exact Console.endsIn_mono (by omega) (Console.endsIn_of_ended hended)
  · exact Console.endsIn_mono (by omega) (Console.endsIn_of_zero hzero)

/-- Past the first run of cells, a string ends or not as the free value yesRun says (log 11). -/
theorem routineString_ends_or_unending (cell : Word → List Byte) {s : State} (hm : Memory.wf s.mem) :
    (∃ t, routineString cell s = .next t) ∨
    (routineString cell s = .fault .stringUnending ∧ ∃ d, s.console.draws ≤ d ∧ Config.yesRun d = none) := by
  rcases routineString_runs cell hm with hnext | ⟨u, hrest, _, _, hdraws, hwf, _⟩
  · exact .inl hnext
  · rw [hrest]
    cases hyes : Config.yesRun u.console.draws with
    | some k => exact .inl (stringRest_ends cell hwf hyes)
    | none => exact .inr ⟨by simp [stringRest, hyes, stringForever], _, hdraws, hyes⟩

/-- Settles O60: a script that is sure to end the string ends it; otherwise the string ends, or it goes on for ever
and then no ordinary Word is 0. -/
theorem stringRoutinesRunForeverOnlyOnEndlessKeys : Obligations.StringRoutinesRunForeverOnlyOnEndlessKeys := by
  intro i s hi hm
  obtain ⟨cell, hexec⟩ := exec_string hi
  rw [hexec]
  refine ⟨fun hscript => routineString_ends_at_poll cell (s := s.trapEntry) hm
    (Console.endsIn_of_ending_script hscript), ?_⟩
  rcases routineString_ends_or_unending cell (s := s.trapEntry) hm with hnext | ⟨hfault, hyes⟩
  · exact .inl hnext
  · refine .inr ⟨hfault, fun a hkbsr hkbdr hz => ?_, hyes⟩
    obtain ⟨t, hnext⟩ := routineString_ends_at_zero cell (s := s.trapEntry) hkbsr hkbdr hz
    cases hfault.symm.trans hnext

end Sys2Proof.Machine


/-! SUPPORT. The reserved opcodes (46): each is the fatal abort with its own number, after which no step follows. -/

namespace Sys2Proof.Machine

theorem exec_rsv8 (s : State) : exec .rsv8 s = .next (s.abort 0x8#4) := rfl

theorem exec_rsvd (s : State) : exec .rsvd s = .next (s.abort 0xD#4) := rfl

/-- An abort is a stop with a reason, so it is terminal (40 R137). -/
theorem step_abort_ne_next (s : State) (op : Opcode) (u : State) : step (s.abort op) ≠ .next u :=
  step_stop_ne_next (why := .abort op) (s.consoleWriteAll (Config.abortMsg op)) nofun u

/-- Settles O41: each opcode is an abort, and an abort is terminal. -/
theorem reservedOpcodesAbort : Obligations.ReservedOpcodesAbort := by
  intro s
  constructor
  · exact ⟨_, exec_rsv8 s, abort_aborts s _, step_abort_ne_next s _⟩
  · exact ⟨_, exec_rsvd s, abort_aborts s _, step_abort_ne_next s _⟩

end Sys2Proof.Machine


/-! SUPPORT. Which instructions may not complete (40 R133, 45 R234, 60 R271): the two waits, routine by routine. -/

namespace Sys2Proof.Machine

/-- The outcome is a next state, or, where `wait` allows it, one of the two waits (log 9, 11). -/
def NextOrWaits (wait : Bool) (o : Host.Outcome State Fault Refusal) : Prop :=
  (∃ t, o = .next t) ∨ (wait = true ∧ (o = .fault .awaitingInput ∨ o = .fault .stringUnending))

theorem NextOrWaits.next (wait : Bool) (t : State) : NextOrWaits wait (.next t) := .inl ⟨t, rfl⟩

theorem NextOrWaits.awaitingInput : NextOrWaits true (.fault .awaitingInput) := .inr ⟨rfl, .inl rfl⟩

theorem routineGetc_nextOrWaits (s : State) : NextOrWaits true (routineGetc s) := by
  unfold routineGetc
  split
  · exact .awaitingInput
  · exact .next true _

theorem routineIn_nextOrWaits (s : State) : NextOrWaits true (routineIn s) := by
  unfold routineIn
  split
  · exact .awaitingInput
  · exact .next true _

theorem routineString_nextOrWaits (cell : Word → List Byte) (s : State) :
    NextOrWaits true (routineString cell s) := by
  rcases routineString_cases cell s with hfault | ⟨t, hnext, _⟩
  · exact .inr ⟨rfl, .inr hfault⟩
  · exact .inl ⟨t, hnext⟩

/-- The selectors that may wait are those of GETC, PUTS, IN and PUTSP; every other selector completes. -/
theorem dispatch_nextOrWaits (v : Byte) (s : State) : NextOrWaits (Instr.trap v).mayWait (dispatch v s) := by
  unfold dispatch
  split_ifs with hgetc hout hputs hin hputsp hhalt
  · subst hgetc
    exact routineGetc_nextOrWaits s
  · exact .next _ _
  · subst hputs
    exact routineString_nextOrWaits putsCell s
  · subst hin
    exact routineIn_nextOrWaits s
  · subst hputsp
    exact routineString_nextOrWaits putspCell s
  · exact .next _ _
  · exact .next _ _

/-- Only the trap routines can fail to complete, and a named routine is what its selector dispatches to (45 R231). -/
theorem exec_nextOrWaits (i : Instr) (s : State) : NextOrWaits i.mayWait (exec i s) := by
  cases i with
  | br | addR | addI | andR | andI | not | ld | ldi | ldr | lea | st | sti | str | jmp | ret | jsr | jsrr | rsv8 | rsvd =>
    exact .next _ _
  | trap v => exact dispatch_nextOrWaits v s.trapEntry
  | getc => exact dispatch_nextOrWaits 0x20#8 s.trapEntry
  | out => exact dispatch_nextOrWaits 0x21#8 s.trapEntry
  | puts => exact dispatch_nextOrWaits 0x22#8 s.trapEntry
  | inp => exact dispatch_nextOrWaits 0x23#8 s.trapEntry
  | putsp => exact dispatch_nextOrWaits 0x24#8 s.trapEntry
  | halt => exact dispatch_nextOrWaits 0x25#8 s.trapEntry

/-- Settles O56, which says this of every instruction and state. -/
theorem onlyWaitingInstructionsMayNotComplete : Obligations.OnlyWaitingInstructionsMayNotComplete :=
  exec_nextOrWaits

end Sys2Proof.Machine
